-- ==== Sys2Proof/Word.lean ====
section
/-! DEFINITION. The words of the block: a 32-bit register value, an 8-bit sample or message byte, one bit
(00_scope.md R6, R11), and `zext_32` (R10). -/

namespace Sys2Proof

/-- The value of a host register: `REG_BITS` = 32 bits (R6). -/
abbrev Word := BitVec 32

/-- A carrier sample or a message byte: 8 bits, unsigned (R6). -/
abbrev Byte := BitVec 8

/-- One element of a bit stream (R9): `true` is 1, `false` is 0. -/
abbrev Bit := Bool

/-- `zext_32` of a natural (R10, R11): the natural as a register value. -/
def zext32 (n : Nat) : Word := BitVec.ofNat 32 n

/-- A bit as a number, 0 or 1 (R9). -/
def bitNat (b : Bit) : Nat := if b then 1 else 0

end Sys2Proof
end

