-- ==== Sys2Proof/Config.lean ====
section
/-! DEFINITION. What one instance of the block fixes: its parameters (00_scope.md R6), and the free values the
spec leaves unspecified (93_implementation_defined.md I3, I4). -/

namespace Sys2Proof

/-- The instance parameters of R6. `State` carries them and no step changes them, so a claim about every
state is a claim about every geometry (log entry 1). -/
structure Params where
  rows : Nat
  cols : Nat
  msgBufBytes : Nat
  deriving DecidableEq, Repr

/-- `CAP = ROWS * COLS * 3`, the number of slots (R6). -/
def Params.cap (p : Params) : Nat := p.rows * p.cols * 3

/-- `OUT_BUF_BYTES = floor(CAP / 8)` (R6). -/
def Params.outBufBytes (p : Params) : Nat := p.cap / 8

/-- DESIGN CHOICE (log entry 1): the geometry of the one state `State.reset`, the 1 x 8 pixels and 16 message
bytes of 95_test_vectors.md. No claim about the machine's steps rests on it. -/
def Config.params : Params := { rows := 1, cols := 8, msgBufBytes := 16 }

/-- Free natural number `k` (log entry 4): nothing says what it is. -/
opaque Config.freeNat : Nat → Nat

/-- Free 32-bit word `k` (log entry 4). -/
opaque Config.freeWord : Nat → Word

/-- Free byte `k` (log entry 4). -/
opaque Config.freeByte : Nat → Byte

/-- Free bit `k` (log entry 4). -/
opaque Config.freeBit : Nat → Bit

/-- Free byte of CAR at each address: what it holds from power-on until a write (93_implementation_defined.md I3,
92_eei_decisions.md D15; log entry 2). -/
opaque Config.unwrittenCar : Nat → Byte

/-- Free byte of MIN at each address, from power-on until a write (I3; log entry 2). -/
opaque Config.unwrittenMin : Nat → Byte

/-- Free byte of MOUT at each address, from power-on until a write (I3; log entry 2). -/
opaque Config.unwrittenMout : Nat → Byte

end Sys2Proof
end

