-- ==== Sys2Proof/Machine/Port.lean ====
section
/-! DEFINITION. The vocabulary of the host port: registers and their offsets (10_state.md R17), buffers
(20_memory.md R40), the accesses a HOST makes, and the turns of the agents. -/

namespace Sys2Proof.Machine

/-- The eleven host registers (R17). -/
inductive HostReg where
  | cmd | slot | status | config | capacity | rows | cols | msgInLen | msgOutLen | bitsWritten | msgBufSize
  deriving DecidableEq, Repr

/-- The byte offset of a host register (R17). -/
def regOffset : HostReg → Nat
  | .cmd => 0x00
  | .slot => 0x04
  | .status => 0x08
  | .config => 0x0C
  | .capacity => 0x10
  | .rows => 0x14
  | .cols => 0x18
  | .msgInLen => 0x1C
  | .msgOutLen => 0x20
  | .bitsWritten => 0x24
  | .msgBufSize => 0x28

/-- Every host register, in the order of R17's table. -/
def hostRegs : List HostReg :=
  [.cmd, .slot, .status, .config, .capacity, .rows, .cols, .msgInLen, .msgOutLen, .bitsWritten, .msgBufSize]

/-- The register at an offset; no register where R17 lists none (unmapped, R41). -/
def regAt (off : Nat) : Option HostReg := hostRegs.find? fun r => regOffset r == off

/-- The three byte buffers (10_state.md R30). -/
inductive Buffer where
  | car | min | mout
  deriving DecidableEq, Repr

/-- The number of bytes of a buffer (R30, R40): its addresses are `0 .. size - 1`. -/
def bufSize (p : Params) : Buffer → Nat
  | .car => p.cap
  | .min => p.msgBufBytes
  | .mout => p.outBufBytes

/-- One access of the HOST, as it drives the port: the width is in bits (20_memory.md R41, R49). The value of
a write is the value that moves when the width is right; an access of another width is a bus error and moves
nothing (R55). -/
inductive HostAccess where
  | regRead (width off : Nat)
  | regWrite (width off : Nat) (v : Word)
  | bufRead (b : Buffer) (width addr : Nat)
  | bufWrite (b : Buffer) (width addr : Nat) (v : Byte)
  deriving DecidableEq, Repr

/-- What the HOST does next: one access, or the polling loop `WAIT` of 30_encoding.md R69 (a read of STATUS
repeated until BUSY is 0; log entry 18). -/
inductive HostStmt where
  | access (a : HostAccess)
  | wait
  deriving DecidableEq, Repr

/-- A value a HOST read returned: 32 bits from a register, 8 from a buffer (20_memory.md R50). -/
inductive HostResult where
  | word (v : Word)
  | byte (v : Byte)
  deriving DecidableEq, Repr

/-- Why a HOST access is a bus error (20_memory.md R55). -/
inductive BusError where
  /-- A buffer address outside its range. -/
  | outOfRange
  /-- A register access that is not 32 bits, or a buffer access that is not 8. -/
  | wrongWidth
  /-- A register offset that is not a multiple of 4. -/
  | misaligned
  /-- A register offset at which R17 lists no register. -/
  | unmapped
  /-- A HOST write to MOUT. -/
  | moutWrite
  deriving DecidableEq, Repr

/-- What the sequencer does next (10_state.md R31). -/
inductive Mode where
  | idle | dec | emb | ext
  deriving DecidableEq, Repr

/-- One turn (log entry 6). -/
inductive Turn where
  /-- The HOST's. -/
  | host
  /-- One sequencer step. -/
  | seq
  /-- A reset from outside that arrives between two sequencer steps. -/
  | reset
  /-- A reset from outside that arrives inside a sequencer step, after the step's write to a buffer and before
  anything else of it (70_reset_and_hazards.md R141; log entry 12). -/
  | resetInStep
  deriving DecidableEq, Repr

end Sys2Proof.Machine
end

