-- ==== Sys2Proof/Machine/State.lean ====
section
/-! DEFINITION. The state of the block (10_state.md): the host registers, the three buffers, the sequencer's
registers, the held HOST access, and the model's own input queue and schedule. Plain data. -/

namespace Sys2Proof.Machine

/-- A byte buffer: its bytes as (address, byte) pairs, in the canonical form `Memory.wf` of Machine/Ops.lean. -/
abbrev Memory := List Host.Cell

/-- The sequencer's internal registers (R31). None is host-readable. -/
structure Seq where
  /-- `SEQ.MODE`: what the sequencer does next. -/
  mode : Mode
  /-- `SEQ.CW`: the command word latched at issue. -/
  cw : Word
  /-- `SEQ.IDX`: next slot to write (EMB) or read (EXT). -/
  idx : Nat
  /-- `SEQ.LIM`: number of slots EMB writes. -/
  lim : Nat
  /-- `SEQ.N`: message length latched at EMBED issue. -/
  n : Nat
  /-- `SEQ.TR`: truncation flag latched at EMBED issue. -/
  tr : Bit
  /-- `SEQ.ACC`: bits of the group being assembled (EXT). -/
  acc : Byte
  /-- `SEQ.ACCN`: number of bits in `SEQ.ACC`. -/
  accn : Nat
  /-- `SEQ.OUTK`: bytes written to MOUT so far (EXT). -/
  outk : Nat
  deriving DecidableEq, Repr

/-- Everything the spec gives the block, and the model's own fields that stand for its environment. -/
structure State where
  /-- The instance parameters (00_scope.md R6): no step changes them (log entry 1). -/
  params : Params
  /-- `SLOT` (R19). -/
  slot : Word
  /-- `STATUS` (R20), read and written whole; its fields are in Machine/Flags.lean. -/
  status : Word
  /-- `CONFIG` (R22): bit 0 is `OVF`; bits 31:1 read 0. -/
  config : Word
  /-- `MSG_IN_LEN` (R26). -/
  msgInLen : Word
  /-- `MSG_OUT_LEN` (R27). -/
  msgOutLen : Word
  /-- `BITS_WRITTEN` (R28). -/
  bitsWritten : Word
  /-- `CAR`: the carrier samples, one byte per slot (R30, 20_memory.md R42). -/
  car : Memory
  /-- `MIN`: the message-in buffer (R30). -/
  mIn : Memory
  /-- `MOUT`: the message-out buffer (R30). -/
  mOut : Memory
  /-- The sequencer's registers (R31). -/
  seq : Seq
  /-- The HOST access that waits for BUSY = 0 (20_memory.md R51), if there is one. -/
  held : Option HostAccess
  /-- The model's own: what the HOST does next, in its program order (R52; log entry 5). -/
  hostQueue : List HostStmt
  /-- The model's own: the values the HOST's reads returned, newest first (log entry 5). -/
  hostGot : List HostResult
  /-- The model's own: whose turns come next; when none is listed, a command runs to its end in one step and the HOST moves between commands (log entry 6). -/
  turns : List Turn
  /-- The model's own: how many free values have been drawn (log entry 4). -/
  draws : Nat
  deriving DecidableEq, Repr

/-- Why the machine stops. The spec gives the block no trap (60_exceptions.md R126), so the one reason is a
state that no run reaches. -/
inductive Fault where
  /-- A sequencer step would touch a byte outside its buffer. Raised by the EMB and EXT steps of
  Machine/Sequencer.lean; R46 and R47 require `s < CAP`, and a state that meets the invariant never raises it.
  Safe: the machine stops where the spec gives no effect (log entry 9). -/
  | outsideBuffer (b : Buffer)
  deriving DecidableEq, Repr

/-- Why a step has no answer. -/
inductive Refusal where
  /-- An instruction that has no meaning yet. No arm of `exec` answers it. Safe. -/
  | notModelled (mnemonic : String)
  /-- A HOST access the block does not admit (20_memory.md R55: "a model refuses it"). Raised by the host port
  of Machine/HostPort.lean. Safe: the HOST has no such step (log entry 8). -/
  | busError (why : BusError)
  deriving DecidableEq, Repr

/-- The outcome of one step. -/
abbrev Result := Host.Outcome State Fault Refusal

/-- Writes the field `slot` and nothing else. -/
def State.setSlot (s : State) (v : Word) : State := { s with slot := v }

/-- Writes the field `status` and nothing else. -/
def State.setStatus (s : State) (v : Word) : State := { s with status := v }

/-- Writes the field `config` and nothing else. -/
def State.setConfig (s : State) (v : Word) : State := { s with config := v }

/-- Writes the field `msgInLen` and nothing else. -/
def State.setMsgInLen (s : State) (v : Word) : State := { s with msgInLen := v }

/-- Writes the field `msgOutLen` and nothing else. -/
def State.setMsgOutLen (s : State) (v : Word) : State := { s with msgOutLen := v }

/-- Writes the field `bitsWritten` and nothing else. -/
def State.setBitsWritten (s : State) (v : Word) : State := { s with bitsWritten := v }

/-- Writes the field `car` and nothing else. -/
def State.setCar (s : State) (v : Memory) : State := { s with car := v }

/-- Writes the field `mIn` and nothing else. -/
def State.setMIn (s : State) (v : Memory) : State := { s with mIn := v }

/-- Writes the field `mOut` and nothing else. -/
def State.setMOut (s : State) (v : Memory) : State := { s with mOut := v }

/-- Writes the field `seq` and nothing else. -/
def State.setSeq (s : State) (v : Seq) : State := { s with seq := v }

/-- Writes the field `held` and nothing else. -/
def State.setHeld (s : State) (v : Option HostAccess) : State := { s with held := v }

/-- Writes the field `hostQueue` and nothing else. -/
def State.setHostQueue (s : State) (v : List HostStmt) : State := { s with hostQueue := v }

/-- Writes the field `hostGot` and nothing else. -/
def State.setHostGot (s : State) (v : List HostResult) : State := { s with hostGot := v }

/-- Writes the field `turns` and nothing else. -/
def State.setTurns (s : State) (v : List Turn) : State := { s with turns := v }

/-- Writes the field `draws` and nothing else. -/
def State.setDraws (s : State) (v : Nat) : State := { s with draws := v }

/-- Writes `SEQ.MODE` and nothing else. -/
def State.setMode (s : State) (m : Mode) : State := s.setSeq { s.seq with mode := m }

/-- The machine right after reset (70_reset_and_hazards.md R140): every host register the spec gives a value is
0 and `SEQ.MODE` is IDLE. DESIGN CHOICE: the geometry (log entry 1), buffers with nothing listed (log entry 2),
the other sequencer registers 0 (log entry 3), and the model's own fields empty (log entries 4 to 6). -/
def State.reset : State where
  params := Config.params
  slot := 0
  status := 0
  config := 0
  msgInLen := 0
  msgOutLen := 0
  bitsWritten := 0
  car := []
  mIn := []
  mOut := []
  seq := { mode := .idle, cw := 0, idx := 0, lim := 0, n := 0, tr := false, acc := 0, accn := 0, outk := 0 }
  held := none
  hostQueue := []
  hostGot := []
  turns := []
  draws := 0

end Sys2Proof.Machine
end

