-- ==== Sys2Proof/Machine/Flags.lean ====
section
/-! DEFINITION. The error codes (60_exceptions.md R120) and the fields of STATUS (10_state.md R20), the block's
only flags (R33). -/

namespace Sys2Proof.Machine

/-- The error codes of R120; codes 5 to 15 are never produced. -/
inductive ErrorCode where
  | none | illegalCmd | slotRange | capacityExceeded | msgLenRange
  deriving DecidableEq, Repr

/-- The number of an error code (R120). -/
def errorNumber : ErrorCode → Nat
  | .none => 0
  | .illegalCmd => 1
  | .slotRange => 2
  | .capacityExceeded => 3
  | .msgLenRange => 4

/-- `STATUS.BUSY`, bit 0. -/
def statusBusy (w : Word) : Bit := w.getLsbD 0

/-- `STATUS.DONE`, bit 1. -/
def statusDone (w : Word) : Bit := w.getLsbD 1

/-- `STATUS.ERR`, bit 2. -/
def statusErr (w : Word) : Bit := w.getLsbD 2

/-- `STATUS.ECODE`, bits 7:4. -/
def statusEcode (w : Word) : BitVec 4 := w.extractLsb' 4 4

/-- `STATUS.RBIT`, bit 8. -/
def statusRbit (w : Word) : Bit := w.getLsbD 8

/-- `STATUS.TRUNC`, bit 9. -/
def statusTrunc (w : Word) : Bit := w.getLsbD 9

/-- `STATUS.FOUND`, bit 10. -/
def statusFound (w : Word) : Bit := w.getLsbD 10

/-- The STATUS of an executing command: BUSY = 1, every other field 0 (30_encoding.md R65). -/
def busyStatus : Word := 0x00000001

/-- The STATUS a completion writes, field by field as R121 computes it: DONE = 1, BUSY = 0. -/
def completeStatus (e : ErrorCode) (rbit trunc found : Bit) : Word :=
  zext32 ((bitNat found <<< 10) ||| (bitNat trunc <<< 9) ||| (bitNat rbit <<< 8)
    ||| (errorNumber e <<< 4) ||| (bitNat (decide (errorNumber e ≠ 0)) <<< 2) ||| (1 <<< 1))

end Sys2Proof.Machine
end

