-- ==== Sys2Proof/Machine/Ops.lean ====
section
/-! DEFINITION. The named operations every command is written over: one byte of a buffer, the bit-plane
primitives LsbRead and LsbWrite (20_memory.md R46, R47), the completion of a command (60_exceptions.md R121),
and reset (70_reset_and_hazards.md R140). The block has no trap entry and no trap return (R126, R127):
`raiseError` is its only exception primitive (00_scope.md R10). -/

namespace Sys2Proof.Machine

/-- What a byte of a buffer that nothing has written reads as: a free value per byte, fixed until a write
(93_implementation_defined.md I3; log entry 2). -/
def unwrittenByte : Buffer → Nat → Byte
  | .car => Config.unwrittenCar
  | .min => Config.unwrittenMin
  | .mout => Config.unwrittenMout

/-- The byte last written at an address, if one was. -/
def memGet : Memory → Nat → Option Byte
  | [], _ => none
  | (b, w) :: m, a => if a = b then some w else memGet m a

/-- `MemRead(S, a, 1)` on the bytes `m` of buffer `b` (R10): the byte last written, else the free one. -/
def memRead (b : Buffer) (m : Memory) (a : Nat) : Byte := (memGet m a).getD (unwrittenByte b a)

/-- `MemWrite(S, a, 1, v)` on the bytes of one buffer (R10), keeping `Memory.wf`. -/
def memWrite : Memory → Nat → Byte → Memory
  | [], a, v => [(a, v)]
  | (b, w) :: m, a, v =>
    if a < b then (a, v) :: (b, w) :: m
    else if a = b then (a, v) :: m
    else (b, w) :: memWrite m a v

/-- Every address listed is at least `lo` and they rise. -/
def memWfFrom : Nat → Memory → Bool
  | _, [] => true
  | lo, (b, _) :: m => decide (lo ≤ b) && memWfFrom (b + 1) m

/-- The canonical form of a buffer: the written bytes, addresses strictly rising. An address that is not listed holds
no written byte, so no entry equals one, and buffers with the same written bytes are the same data (log entry 2). -/
def Memory.wf (m : Memory) : Bool := memWfFrom 0 m

/-- Every listed address lies inside a buffer of `size` bytes (20_memory.md R40). -/
def memBelow (size : Nat) (m : Memory) : Bool := m.all fun c => decide (c.1 < size)

/-- The bytes of a buffer of the machine. -/
def bufOf (b : Buffer) (s : State) : Memory :=
  match b with
  | .car => s.car
  | .min => s.mIn
  | .mout => s.mOut

/-- The machine with the bytes of one buffer replaced. -/
def setBuf (b : Buffer) (s : State) (m : Memory) : State :=
  match b with
  | .car => s.setCar m
  | .min => s.setMIn m
  | .mout => s.setMOut m

/-- `LsbRead(s)`: bit 0 of the sample of slot `s` (R46). -/
def lsbRead (car : Memory) (s : Nat) : Bit := (memRead .car car s).getLsbD 0

/-- The sample `v` with bit 0 set to `b`: `(v[7:1] * 2) + b` (R47). -/
def withLsb (v : Byte) (b : Bit) : Byte := BitVec.ofNat 8 (v.toNat / 2 * 2 + bitNat b)

/-- `LsbWrite(s, b)` on the carrier (R47). -/
def lsbWrite (car : Memory) (s : Nat) (b : Bit) : Memory := memWrite car s (withLsb (memRead .car car s) b)

/-- `Complete(ecode, rbit, trunc, found)` (60_exceptions.md R121): STATUS, and the sequencer idle. -/
def complete (e : ErrorCode) (rbit trunc found : Bit) (s : State) : State :=
  (s.setStatus (completeStatus e rbit trunc found)).setMode .idle

/-- `raise Error(code)` is `Complete(code, 0, 0, 0)` (R10, R121): a command that cannot do its work. -/
def raiseError (e : ErrorCode) (s : State) : State := complete e false false false s

/-- The sequencer's registers after a reset: IDLE, and the others unspecified, so free values kept in the
ranges of 10_state.md R31 (log entry 4). -/
def freeSeq (p : Params) (d : Nat) : Seq where
  mode := .idle
  cw := Config.freeWord d
  idx := Config.freeNat d % (p.cap + 1)
  lim := Config.freeNat (d + 1) % (p.cap + 1)
  n := Config.freeNat (d + 2) % (p.msgBufBytes + 1)
  tr := Config.freeBit d
  acc := Config.freeByte d
  accn := Config.freeNat (d + 3) % 8
  outk := Config.freeNat (d + 4) % (p.outBufBytes + 1)

/-- Reset in one step, from any state, a command executing or not (70_reset_and_hazards.md R140, R141): the
writable host registers 0, the sequencer idle, the held access dropped, the buffers kept. What the HOST does
next stays queued (log entry 12). -/
def resetOp (s : State) : State :=
  ((((((((s.setStatus 0).setSlot 0).setConfig 0).setMsgInLen 0).setMsgOutLen 0).setBitsWritten 0).setSeq
    (freeSeq s.params s.draws)).setHeld none).setDraws (s.draws + 5)

end Sys2Proof.Machine
end

