-- ==== Sys2Proof/Machine/Operands.lean ====
section
/-! DEFINITION. The operands of the commands (30_encoding.md R61): all but WRBIT's bit come from the state at
the moment the sequencer decodes the command. -/

namespace Sys2Proof.Machine

/-- The slot operand of WRBIT and RDBIT: `REG.SLOT`, zero-extended, never truncated (R61). -/
def slotOperand (s : State) : Nat := s.slot.toNat

/-- A slot operand is valid exactly when it is below CAP (41_slot_access.md R87). -/
def slotValid (s : State) : Bool := decide (slotOperand s < s.params.cap)

/-- `N = REG.MSG_IN_LEN`, the message length of EMBED (10_state.md R26). -/
def msgLen (s : State) : Nat := s.msgInLen.toNat

/-- The bytes `MIN[0] ... MIN[n-1]` (42_stego.md R95). -/
def minBytes (s : State) (n : Nat) : List Byte := (List.range n).map (memRead .min s.mIn)

/-- `REG.CONFIG.OVF`, bit 0 of CONFIG: the policy is FAIL (10_state.md R22). -/
def policyFail (s : State) : Bit := s.config.getLsbD 0

/-- `L = 8 * N + 16`, exact: the payload bits of a message of `n` bytes (R95, 00_scope.md R7). -/
def payloadLen (n : Nat) : Nat := 8 * n + 16

end Sys2Proof.Machine
end

