-- ==== Sys2Proof/Machine/SlotAccess.lean ====
section
/-! DEFINITION. The LSBChannel commands WRBIT and RDBIT (41_slot_access.md). -/

namespace Sys2Proof.Machine

/-- WRBIT (R88): bit `b` into bit 0 of slot `REG.SLOT`; `SLOT_RANGE` when there is no such slot (R87). -/
def execWrbit (b : Bit) (s : State) : Result :=
  if slotValid s then
    .next (complete .none false false false (s.setCar (lsbWrite s.car (slotOperand s) b)))
  else .next (raiseError .slotRange s)

/-- RDBIT (R90): bit 0 of slot `REG.SLOT` into `STATUS.RBIT`; `SLOT_RANGE` when there is no such slot
(R87). -/
def execRdbit (s : State) : Result :=
  if slotValid s then .next (complete .none (lsbRead s.car (slotOperand s)) false false s)
  else .next (raiseError .slotRange s)

end Sys2Proof.Machine
end

