-- ==== Sys2Proof/Machine/BitCodec.lean ====
section
/-! DEFINITION. The BitCodec datapath functions (40_bitcodec.md): bytes to bits, most-significant bit first,
and back; the terminator; the payload; the stop-group predicate. -/

namespace Sys2Proof.Machine

/-- `Bits(v) = v[7] v[6] ... v[0]` (R75). -/
def byteBits (v : Byte) : List Bit :=
  [v.getLsbD 7, v.getLsbD 6, v.getLsbD 5, v.getLsbD 4, v.getLsbD 3, v.getLsbD 2, v.getLsbD 1, v.getLsbD 0]

/-- `toBits(B)`: the bits of each byte, bytes in order (R75). -/
def toBits : List Byte → List Bit
  | [] => []
  | v :: vs => byteBits v ++ toBits vs

/-- `Byte(g0 ... g7) = g0*128 + g1*64 + ... + g7` (R77). -/
def groupByte (g0 g1 g2 g3 g4 g5 g6 g7 : Bit) : Byte :=
  BitVec.ofNat 8 (bitNat g0 * 128 + bitNat g1 * 64 + bitNat g2 * 32 + bitNat g3 * 16
    + bitNat g4 * 8 + bitNat g5 * 4 + bitNat g6 * 2 + bitNat g7)

/-- `fromBits(G)`: the bytes of the consecutive 8-bit groups (R77). A stream whose length is not a multiple of
8 has no value and is refused: no answer (R78; log entry 14). -/
def fromBits : List Bit → Option (List Byte)
  | [] => some []
  | g0 :: g1 :: g2 :: g3 :: g4 :: g5 :: g6 :: g7 :: rest =>
    (fromBits rest).map (groupByte g0 g1 g2 g3 g4 g5 g6 g7 :: ·)
  | _ => none

/-- The terminator `1111111111111110`, element 0 first (R79). -/
def term : List Bit :=
  [true, true, true, true, true, true, true, true, true, true, true, true, true, true, true, false]

/-- `PayloadBits(B) = toBits(B) ++ TERM` (R80). -/
def payloadBits (m : List Byte) : List Bit := toBits m ++ term

/-- `P(B, s)`: the bit EMBED writes at slot `s` (R80): a message bit, then a terminator bit. Past the payload
there is no bit; no command asks for one. -/
def payloadBit (m : List Byte) (s : Nat) : Bit :=
  if s < 8 * m.length then (m.getD (s / 8) 0).getLsbD (7 - s % 8)
  else term.getD (s - 8 * m.length) false

/-- `IsStop(g) = (Byte(g) = 0xFF)`, on the byte of the group (R81). -/
def isStop (g : Byte) : Bool := g == 0xFF

end Sys2Proof.Machine
end

