-- ==== Sys2Proof/Machine/Stego.lean ====
section
/-! DEFINITION. The StegoCodec commands EMBED and EXTRACT (42_stego.md R95, R99) in the atomic view of
30_encoding.md R67: the whole command is one transition. The sequencer steps that realise them are in
Machine/Sequencer.lean. -/

namespace Sys2Proof.Machine

/-- The loop of R95: `LsbWrite(s, P(M, s))` for the slots `0 .. n-1`, in increasing order. -/
def embedSlots (m : List Byte) (car : Memory) : Nat → Memory
  | 0 => car
  | n + 1 => lsbWrite (embedSlots m car n) n (payloadBit m n)

/-- The registers the sequencer is left with by an EMBED that wrote `lim` slots of an `n`-byte message: R110
latches N, LIM and TR, and R111 counts IDX up to LIM (log entry 7). -/
def seqAfterEmbed (q : Seq) (n lim : Nat) (tr : Bit) : Seq := { q with n := n, lim := lim, tr := tr, idx := lim }

/-- EMBED (R95). The message length is tested before the capacity (60_exceptions.md R123). -/
def execEmbed (s : State) : Result :=
  if s.params.msgBufBytes < msgLen s then .next (raiseError .msgLenRange (s.setBitsWritten 0))
  else if s.params.cap < payloadLen (msgLen s) && policyFail s then
    .next (raiseError .capacityExceeded (s.setBitsWritten 0))
  else
    .next (complete .none false (decide (s.params.cap < payloadLen (msgLen s))) false
      (((s.setCar (embedSlots (minBytes s (msgLen s)) s.car (min (payloadLen (msgLen s)) s.params.cap))).setBitsWritten
        (zext32 (min (payloadLen (msgLen s)) s.params.cap))).setSeq
        (seqAfterEmbed s.seq (msgLen s) (min (payloadLen (msgLen s)) s.params.cap)
          (decide (s.params.cap < payloadLen (msgLen s))))))

/-- `Byte(g)` of group `k` of the bit plane: `LsbRead(8k) ... LsbRead(8k+7)`, bit 8k first (R99). -/
def groupAt (car : Memory) (k : Nat) : Byte :=
  groupByte (lsbRead car (8 * k)) (lsbRead car (8 * k + 1)) (lsbRead car (8 * k + 2)) (lsbRead car (8 * k + 3))
    (lsbRead car (8 * k + 4)) (lsbRead car (8 * k + 5)) (lsbRead car (8 * k + 6)) (lsbRead car (8 * k + 7))

/-- What the scan of R99 ends with: the bytes copied, whether a stop group ended it, and MOUT. -/
structure Scan where
  k : Nat
  found : Bit
  mOut : Memory
  deriving DecidableEq, Repr

/-- The loop of R99 with `left` complete groups still to read, the next of them group `k`. -/
def scanGroups (car : Memory) : Nat → Nat → Memory → Scan
  | 0, k, mOut => { k := k, found := false, mOut := mOut }
  | left + 1, k, mOut =>
    if isStop (groupAt car k) then { k := k, found := true, mOut := mOut }
    else scanGroups car left (k + 1) (memWrite mOut k (groupAt car k))

/-- One bit shifted into the group being assembled: `((ACC * 2) + bit) mod 256` (R114). -/
def shiftIn (acc : Byte) (b : Bit) : Byte := BitVec.ofNat 8 (acc.toNat * 2 + bitNat b)

/-- The group register after the first `n` bits from slot `lo` on (R114). -/
def partialAcc (car : Memory) (lo : Nat) : Nat → Byte
  | 0 => 0
  | n + 1 => shiftIn (partialAcc car lo n) (lsbRead car (lo + n))

/-- The registers the sequencer is left with by an EXTRACT (R114; log entry 7): after a stop group the seven
1 bits before the last and IDX past the group, else the discarded partial group and IDX = CAP. -/
def seqAfterExtract (q : Seq) (car : Memory) (cap : Nat) (r : Scan) : Seq :=
  if r.found then { q with idx := 8 * (r.k + 1), acc := partialAcc car (8 * r.k) 7, accn := 7, outk := r.k }
  else { q with idx := cap, acc := partialAcc car (8 * r.k) (cap % 8), accn := cap % 8, outk := r.k }

/-- The scan of a whole carrier (R99): its complete groups, from group 0. -/
def extractScan (s : State) : Scan := scanGroups s.car (s.params.cap / 8) 0 s.mOut

/-- EXTRACT (R99). -/
def execExtract (s : State) : Result :=
  .next (complete .none false false (extractScan s).found
    (((s.setMOut (extractScan s).mOut).setMsgOutLen (zext32 (extractScan s).k)).setSeq
      (seqAfterExtract s.seq s.car s.params.cap (extractScan s))))

end Sys2Proof.Machine
end

