-- ==== Sys2Proof/Syntax.lean ====
section
/-! DEFINITION. The commands of the block, one constructor per row of spec/opcode_table.json
(30_encoding.md R62). -/

namespace Sys2Proof

/-- The four commands. The only immediate operand is WRBIT's bit `B = w[4]` (R61), so it is typed as one bit;
every other operand comes from the state. -/
inductive Instr where
  /-- EMBED (42_stego.md R95). -/
  | embed
  /-- EXTRACT (42_stego.md R99). -/
  | extract
  /-- WRBIT with bit operand `b` (41_slot_access.md R88). -/
  | wrbit (b : Bit)
  /-- RDBIT (41_slot_access.md R90). -/
  | rdbit
  deriving DecidableEq, Repr

end Sys2Proof
end

