-- ==== Sys2Proof/Machine/Dispatch.lean ====
section
/-! DEFINITION. The dispatch of a decoded command to its meaning, one arm per command. -/

namespace Sys2Proof.Machine

/-- The meaning of a command: `Exec` of 30_encoding.md R67 from its decode to its completion. -/
def exec (i : Instr) (s : State) : Host.Outcome State Fault Refusal :=
  match i with
  | .embed => Sys2Proof.Machine.execEmbed s
  | .extract => Sys2Proof.Machine.execExtract s
  | .wrbit b => Sys2Proof.Machine.execWrbit b s
  | .rdbit => Sys2Proof.Machine.execRdbit s

end Sys2Proof.Machine
end

