-- ==== Sys2Proof/WellFormed.lean ====
section
/-! DEFINITION. Well-formed commands and well-formed instance parameters. -/

namespace Sys2Proof

/-- Every command term is well formed: WRBIT's operand is typed as one bit (30_encoding.md R61) and no other
command has an immediate, so nothing is left to check. -/
def Instr.wf : Instr → Bool
  | .embed => true
  | .extract => true
  | .wrbit _ => true
  | .rdbit => true

/-- The constraints of 00_scope.md R6: `CAP` and `MSG_BUF_BYTES` fit a 32-bit register. That `ROWS` and `COLS`
themselves fit is DEDUCED from R7, "every such value fits" (log entry 10): with `CAP = 0` R6 alone does not
bound the other of the two. -/
def Params.wf (p : Params) : Bool :=
  decide (p.cap ≤ 2 ^ 32 - 1) && decide (p.msgBufBytes ≤ 2 ^ 32 - 1)
    && decide (p.rows ≤ 2 ^ 32 - 1) && decide (p.cols ≤ 2 ^ 32 - 1)

end Sys2Proof
end

