-- ==== Sys2Proof/Decode.lean ====
section
/-! DEFINITION. The command decoder (30_encoding.md R60 to R64) and, after it, the encoder. A command is one
32-bit word that the HOST writes whole, so the decoder reads a word and no byte order arises
(20_memory.md R48). -/

namespace Sys2Proof

/-- Field `OP = w[3:0]` of format C (R60). -/
def opField (w : Word) : BitVec 4 := w.extractLsb' 0 4

/-- Field `B = w[4]` of format C (R60). -/
def bField (w : Word) : Bit := w.getLsbD 4

/-- Field `RSV = w[31:5]` of format C (R60). -/
def rsvField (w : Word) : BitVec 27 := w.extractLsb' 5 27

/-- Why a word is ILLEGAL (R64). The machine treats all three alike (`ILLEGAL_CMD`). -/
inductive IllegalWord where
  /-- A reserved bit 31:5 is set. -/
  | reservedBits
  /-- Bit 4 is set and the opcode is not WRBIT's. -/
  | bitOperand
  /-- Opcode 0x0 or 0x5 to 0xF. -/
  | reservedOpcode
  deriving DecidableEq, Repr

/-- What `Decode(w)` answers: a command, or ILLEGAL with its cause. -/
inductive Decoded where
  | command (i : Instr)
  | illegal (why : IllegalWord)
  deriving DecidableEq, Repr

/-- `Decode(w)`, in the order of R63: reserved bits before the opcode (R123), WRBIT before the check of
bit 4. Total over all 2^32 words. -/
def decode (w : Word) : Decoded :=
  if rsvField w ≠ 0 then .illegal .reservedBits
  else if opField w = 0x3 then .command (.wrbit (bField w))
  else if bField w then .illegal .bitOperand
  else if opField w = 0x1 then .command .embed
  else if opField w = 0x2 then .command .extract
  else if opField w = 0x4 then .command .rdbit
  else .illegal .reservedOpcode

/-- The opcode of each command (R62). -/
def opcode : Instr → Nat
  | .embed => 0x1
  | .extract => 0x2
  | .wrbit _ => 0x3
  | .rdbit => 0x4

/-- The bit operand field of each command: WRBIT's bit, 0 otherwise (R60). -/
def bOperand : Instr → Bit
  | .wrbit b => b
  | .embed => false
  | .extract => false
  | .rdbit => false

/-- The word of a command: `OP` in bits 3:0, `B` in bit 4, `RSV = 0` (R60, R68: `0x00000003 + 16*b`). -/
def encode (i : Instr) : Word := zext32 (opcode i + 16 * bitNat (bOperand i))

/-- The command the decoder reads from a table word: `w` has `nbits` bits, the bits above are 0, and a word
that does not fit 32 bits is no command word (log entry 15). -/
def decodeTableWord (nbits w : Nat) : Option Instr :=
  if w % 2 ^ nbits < 2 ^ 32 then
    match decode (zext32 (w % 2 ^ nbits)) with
    | .command i => some i
    | .illegal _ => none
  else none

end Sys2Proof
end

