-- ==== Sys2Proof/Machine/Sequencer.lean ====
section
/-! DEFINITION. The sequencer, one step at a time (30_encoding.md R65, R66; 42_stego.md R110 to R114). -/

namespace Sys2Proof.Machine

/-- Command issue (R65): the word latched, the decode step next, BUSY = 1 and every other STATUS field 0. -/
def issue (w : Word) (s : State) : State :=
  (s.setSeq { s.seq with cw := w, mode := .dec }).setStatus busyStatus

/-- EMBED start (R110). -/
def embedStart (s : State) : State :=
  if s.params.msgBufBytes < msgLen s then raiseError .msgLenRange (s.setBitsWritten 0)
  else if s.params.cap < payloadLen (msgLen s) && policyFail s then
    raiseError .capacityExceeded (s.setBitsWritten 0)
  else
    s.setSeq { s.seq with
      n := msgLen s
      lim := min (payloadLen (msgLen s)) s.params.cap
      tr := decide (s.params.cap < payloadLen (msgLen s))
      idx := 0
      mode := .emb }

/-- EMB step (R111): one slot, or the completion. The bytes it touches lie inside their buffers in every state
that meets the invariant; elsewhere it stops (log entry 9). -/
def embStep (s : State) : Result :=
  if s.seq.idx < s.seq.lim then
    if s.params.cap ≤ s.seq.idx then .fault (.outsideBuffer .car)
    else if s.params.msgBufBytes < s.seq.n then .fault (.outsideBuffer .min)
    else
      .next ((s.setCar (lsbWrite s.car s.seq.idx (payloadBit (minBytes s s.seq.n) s.seq.idx))).setSeq
        { s.seq with idx := s.seq.idx + 1 })
  else .next (complete .none false s.seq.tr false (s.setBitsWritten (zext32 s.seq.lim)))

/-- EXTRACT start (R113). -/
def extractStart (s : State) : State :=
  s.setSeq { s.seq with idx := 0, acc := 0, accn := 0, outk := 0, mode := .ext }

/-- EXT step after the bit of slot `SEQ.IDX` made the group register `a` (R114): a group completed or not. -/
def extBit (a : Byte) (s : State) : Result :=
  if s.seq.accn = 7 then
    if a = 0xFF then
      .next (complete .none false false true
        ((s.setMsgOutLen (zext32 s.seq.outk)).setSeq { s.seq with idx := s.seq.idx + 1 }))
    else if s.params.outBufBytes ≤ s.seq.outk then .fault (.outsideBuffer .mout)
    else
      .next ((s.setMOut (memWrite s.mOut s.seq.outk a)).setSeq
        { s.seq with idx := s.seq.idx + 1, outk := s.seq.outk + 1, acc := 0, accn := 0 })
  else .next (s.setSeq { s.seq with idx := s.seq.idx + 1, acc := a, accn := s.seq.accn + 1 })

/-- EXT step (R114): the completion when every slot is read, else the next bit of the bit plane. -/
def extStep (s : State) : Result :=
  if s.seq.idx = s.params.cap then
    .next (complete .none false false false (s.setMsgOutLen (zext32 s.seq.outk)))
  else if s.params.cap < s.seq.idx then .fault (.outsideBuffer .car)
  else extBit (shiftIn s.seq.acc (lsbRead s.car s.seq.idx)) s

/-- What the decode step does with a decoded command (R66): WRBIT and RDBIT execute whole, EMBED and EXTRACT
start. -/
def startCommand (i : Instr) (s : State) : Result :=
  match i with
  | .embed => .next (embedStart s)
  | .extract => .next (extractStart s)
  | .wrbit b => execWrbit b s
  | .rdbit => execRdbit s

/-- The decode step (R66); an ILLEGAL word completes at once (R64). -/
def decodeStep (s : State) : Result :=
  match decode s.seq.cw with
  | .command i => startCommand i s
  | .illegal _ => .next (raiseError .illegalCmd s)

/-- One sequencer step, by `SEQ.MODE`; an idle sequencer changes nothing (70_reset_and_hazards.md R149). -/
def seqStep (s : State) : Result :=
  match s.seq.mode with
  | .idle => .next s
  | .dec => decodeStep s
  | .emb => embStep s
  | .ext => extStep s

/-- What a reset inside a sequencer step finds: the step's write to CAR or MOUT done, nothing else of the step
(70_reset_and_hazards.md R141: the abandoned command's slot may hold its new bit). A step that writes no buffer, and
an idle sequencer, leave the machine as it is. -/
def abandonStep (s : State) : State :=
  match seqStep s with
  | .next t => (s.setCar t.car).setMOut t.mOut
  | .fault _ => s
  | .refused _ => s

/-- At most `k` sequencer steps, ending when the sequencer is idle (R115, R116). -/
def seqRun : Nat → State → Result
  | 0, s => .next s
  | k + 1, s =>
    if s.seq.mode = .idle then .next s
    else
      match seqStep s with
      | .next t => seqRun k t
      | .fault r => .fault r
      | .refused r => .refused r

end Sys2Proof.Machine
end

