-- ==== Sys2Proof/Machine/HostPort.lean ====
section
/-! DEFINITION. The host port (20_memory.md R40, R41, R49 to R56): which accesses the block admits, what each
does, and the hold of an access while a command executes (R51). -/

namespace Sys2Proof.Machine

/-- An access the block admits (R41, R49, R50). -/
inductive PortOp where
  | readReg (r : HostReg)
  | writeReg (r : HostReg) (v : Word)
  | readBuf (b : Buffer) (addr : Nat)
  | writeBuf (b : Buffer) (addr : Nat) (v : Byte)
  deriving DecidableEq, Repr

/-- The register a REG access selects: 32 bits, at a multiple of 4, at one of the eleven offsets (R41). -/
def selectReg (width off : Nat) : Except BusError HostReg :=
  if width ≠ 32 then .error .wrongWidth
  else if off % 4 ≠ 0 then .error .misaligned
  else
    match regAt off with
    | some r => .ok r
    | none => .error .unmapped

/-- The address a buffer access selects: one byte, in range (R49, R55). -/
def selectByte (p : Params) (b : Buffer) (width addr : Nat) : Except BusError Nat :=
  if width ≠ 8 then .error .wrongWidth
  else if addr < bufSize p b then .ok addr
  else .error .outOfRange

/-- What the port makes of a HOST access: an operation, or the bus error of R55. The HOST may not write
MOUT. -/
def selectAccess (p : Params) : HostAccess → Except BusError PortOp
  | .regRead width off =>
    match selectReg width off with
    | .ok r => .ok (.readReg r)
    | .error e => .error e
  | .regWrite width off v =>
    match selectReg width off with
    | .ok r => .ok (.writeReg r v)
    | .error e => .error e
  | .bufRead b width addr =>
    match selectByte p b width addr with
    | .ok a => .ok (.readBuf b a)
    | .error e => .error e
  | .bufWrite b width addr v =>
    if b = .mout then .error .moutWrite
    else
      match selectByte p b width addr with
      | .ok a => .ok (.writeBuf b a v)
      | .error e => .error e

/-- The value a HOST register read returns (10_state.md R18 to R29): CMD reads 0, CONFIG's reserved bits read
0 (R56), the parameter registers read their constants. -/
def readReg (s : State) : HostReg → Word
  | .cmd => 0
  | .slot => s.slot
  | .status => s.status
  | .config => s.config &&& 1
  | .capacity => zext32 s.params.cap
  | .rows => zext32 s.params.rows
  | .cols => zext32 s.params.cols
  | .msgInLen => s.msgInLen
  | .msgOutLen => s.msgOutLen
  | .bitsWritten => s.bitsWritten
  | .msgBufSize => zext32 s.params.msgBufBytes

/-- A HOST register write (10_state.md R18, R19, R22, R26): CMD issues a command (R65), CONFIG takes bit 0
only, a read-only register ignores it (R56). -/
def writeReg (r : HostReg) (v : Word) (s : State) : State :=
  match r with
  | .cmd => issue v s
  | .slot => s.setSlot v
  | .status => s
  | .config => s.setConfig (v &&& 1)
  | .capacity => s
  | .rows => s
  | .cols => s
  | .msgInLen => s.setMsgInLen v
  | .msgOutLen => s
  | .bitsWritten => s
  | .msgBufSize => s

/-- The HOST's read returns a value; nothing else changes (R50). -/
def answer (v : HostResult) (s : State) : State := s.setHostGot (v :: s.hostGot)

/-- An admitted access takes effect. -/
def portOp (o : PortOp) (s : State) : State :=
  match o with
  | .readReg r => answer (.word (readReg s r)) s
  | .writeReg r v => writeReg r v s
  | .readBuf b a => answer (.byte (memRead b (bufOf b s) a)) s
  | .writeBuf b a v => setBuf b s (memWrite (bufOf b s) a v)

/-- A HOST access takes effect, or is a bus error and is refused (R55). -/
def hostAccess (a : HostAccess) (s : State) : Result :=
  match selectAccess s.params a with
  | .ok o => .next (portOp o s)
  | .error e => .refused (.busError e)

/-- A read of `REG.STATUS`: the one access that is answered while a command executes (R51). -/
def isStatusRead (a : HostAccess) : Bool := a == .regRead 32 0x08

/-- The next thing the HOST does, when it has no access held: a STATUS read is answered at once, another access
is held while BUSY = 1 and takes effect otherwise (R51); WAIT reads STATUS until BUSY = 0 (30_encoding.md
R69). -/
def hostStmt (st : HostStmt) (rest : List HostStmt) (s : State) : Result :=
  match st with
  | .wait =>
    if statusBusy s.status then .next (answer (.word s.status) s)
    else .next (answer (.word s.status) (s.setHostQueue rest))
  | .access a =>
    if statusBusy s.status && !isStatusRead a then .next ((s.setHostQueue rest).setHeld (some a))
    else hostAccess a (s.setHostQueue rest)

/-- The HOST's turn (R51, R52): a held access first, which waits while BUSY = 1; else the next of its program;
else nothing. -/
def hostTurn (s : State) : Result :=
  match s.held with
  | some a => if statusBusy s.status then .next s else hostAccess a (s.setHeld none)
  | none =>
    match s.hostQueue with
    | [] => .next s
    | st :: rest => hostStmt st rest s

end Sys2Proof.Machine
end

