-- ==== Sys2Proof/Machine/Step.lean ====
section
/-! DEFINITION. One step of the machine. Whose turn it is stands in `State.turns`; when none is listed, the
command that executes runs to its completion in one step, which 30_encoding.md R67 allows, and the HOST moves
between commands (log entry 6). -/

namespace Sys2Proof.Machine

/-- The executing command, in the atomic view: decode the latched word and run it whole (R66, R67); a command
that turns have already started goes on by one sequencer step. -/
def commandTurn (s : State) : Result :=
  match s.seq.mode with
  | .dec =>
    match decode s.seq.cw with
    | .command i => exec i s
    | .illegal _ => .next (raiseError .illegalCmd s)
  | .emb => seqStep s
  | .ext => seqStep s
  | .idle => hostTurn s

/-- One step: the listed turn, or by default the executing command, or the HOST between commands. -/
def step (s : State) : Host.Outcome State Fault Refusal :=
  match s.turns with
  | [] => commandTurn s
  | .host :: ts => hostTurn (s.setTurns ts)
  | .seq :: ts => seqStep (s.setTurns ts)
  | .reset :: ts => .next (resetOp (s.setTurns ts))
  | .resetInStep :: ts => .next (resetOp (abandonStep (s.setTurns ts)))

/-- `Exec(state, w)` of R67: issue, decode, execution and completion of one command word as one transition. -/
def execWord (w : Word) (s : State) : Result :=
  match decode w with
  | .command i => exec i (issue w s)
  | .illegal _ => .next (raiseError .illegalCmd (issue w s))

/-- The machine with the command word `w` just issued, so that the next step runs it: what a HOST write to
`REG.CMD` leaves (R65), and no turn listed before it (log entry 5). -/
def State.withFetchWord (s : State) (nbits w : Nat) : State :=
  (issue (zext32 (w % 2 ^ nbits)) s).setTurns []

end Sys2Proof.Machine
end

