-- ==== Sys2Proof/Machine/Asm.lean ====
section
/-! DEFINITION. The host assembly of 30_encoding.md R68 and its pseudo-instructions (R69): a line of text, the
statement it is, and the host port accesses the statement stands for. -/

namespace Sys2Proof.Machine

/-- A statement of R68 or R69. -/
inductive AsmStmt where
  | wr (r : HostReg) (v : Word)
  | rd (r : HostReg)
  | wrb (b : Buffer) (addr : Nat) (v : Byte)
  | rdb (b : Buffer) (addr : Nat)
  | command (i : Instr)
  | wrbitAt (s : Word) (b : Bit)
  | rdbitAt (s : Word)
  | setMsg (bytes : List Byte)
  | policyTruncate
  | policyFail
  | wait
  deriving DecidableEq, Repr

/-- `WR <reg>, <value>`: a 32-bit write at the register's offset (R68). -/
def asmWr (r : HostReg) (v : Word) : HostStmt := .access (.regWrite 32 (regOffset r) v)

/-- `RD <reg>`: a 32-bit read at the register's offset (R68). -/
def asmRd (r : HostReg) : HostStmt := .access (.regRead 32 (regOffset r))

/-- A command is a write of its word to CMD (R68). -/
def asmCommand (i : Instr) : HostStmt := asmWr .cmd (encode i)

/-- `WRB MIN[j], <byte j>` for the bytes of a message, from address `j` on (R69). -/
def asmMsgBytes : Nat → List Byte → List HostStmt
  | _, [] => []
  | j, v :: vs => .access (.bufWrite .min 8 j v) :: asmMsgBytes (j + 1) vs

/-- The host port accesses of a statement (R68) or the expansion of a pseudo-instruction (R69). -/
def expand : AsmStmt → List HostStmt
  | .wr r v => [asmWr r v]
  | .rd r => [asmRd r]
  | .wrb b a v => [.access (.bufWrite b 8 a v)]
  | .rdb b a => [.access (.bufRead b 8 a)]
  | .command i => [asmCommand i]
  | .wrbitAt s b => [asmWr .slot s, asmCommand (.wrbit b)]
  | .rdbitAt s => [asmWr .slot s, asmCommand .rdbit, asmRd .status]
  | .setMsg bytes => asmMsgBytes 0 bytes ++ [asmWr .msgInLen (zext32 bytes.length)]
  | .policyTruncate => [asmWr .config 0]
  | .policyFail => [asmWr .config 1]
  | .wait => [.wait]

/-! The text of a statement (R68; log entry 16). -/

/-- A token of a line: a word (name or number), one of `,` `[` `]`, or a quoted string's bytes. -/
inductive Token where
  | word (w : List Char)
  | sym (c : Char)
  | str (bytes : List Byte)
  deriving DecidableEq, Repr

/-- Where the lexer stands: outside a string, with the letters of an unfinished word (last first), or inside a
string, with its bytes so far (last first) and how much of an escape has been read. -/
inductive LexState where
  | plain (rev : List Char)
  | str (rev : List Byte)
  | esc (rev : List Byte)
  | hexHigh (rev : List Byte)
  | hexLow (rev : List Byte) (high : Nat)
  deriving DecidableEq, Repr

/-- The value of a hexadecimal digit. -/
def digitVal (c : Char) : Option Nat :=
  if '0' ≤ c ∧ c ≤ '9' then some (c.toNat - 48)
  else if 'a' ≤ c ∧ c ≤ 'f' then some (c.toNat - 87)
  else if 'A' ≤ c ∧ c ≤ 'F' then some (c.toNat - 55)
  else none

/-- The letters of names and numbers. -/
def isWordChar (c : Char) : Bool := c.isAlphanum || c == '_'

/-- The word the lexer has read, if any. -/
def flushWord : List Char → List Token
  | [] => []
  | r => [.word r.reverse]

/-- The tokens of a line: `;` starts a comment, a string gives its ASCII bytes (R68, R69), with the escape
`\xHH` for one byte. -/
def lexLine : LexState → List Char → Option (List Token)
  | .plain r, [] => some (flushWord r)
  | _, [] => none
  | .plain r, c :: cs =>
    if isWordChar c then lexLine (.plain (c :: r)) cs
    else if c = ';' then some (flushWord r)
    else if c = ' ' ∨ c = '\t' then (lexLine (.plain []) cs).map (flushWord r ++ ·)
    else if c = ',' ∨ c = '[' ∨ c = ']' then (lexLine (.plain []) cs).map (flushWord r ++ .sym c :: ·)
    else if c = '"' then (lexLine (.str []) cs).map (flushWord r ++ ·)
    else none
  | .str r, c :: cs =>
    if c = '"' then (lexLine (.plain []) cs).map (Token.str r.reverse :: ·)
    else if c = '\\' then lexLine (.esc r) cs
    else if c.toNat < 128 then lexLine (.str (BitVec.ofNat 8 c.toNat :: r)) cs
    else none
  | .esc r, c :: cs => if c = 'x' then lexLine (.hexHigh r) cs else none
  | .hexHigh r, c :: cs =>
    match digitVal c with
    | some d => lexLine (.hexLow r d) cs
    | none => none
  | .hexLow r h, c :: cs =>
    match digitVal c with
    | some d => lexLine (.str (BitVec.ofNat 8 (16 * h + d) :: r)) cs
    | none => none

/-- The number a digit string is in a base, each digit below the base. -/
def parseDigits (base : Nat) : Nat → List Char → Option Nat
  | n, [] => some n
  | n, c :: cs =>
    match digitVal c with
    | some d => if d < base then parseDigits base (base * n + d) cs else none
    | none => none

/-- A number, in decimal or `0x` hexadecimal (R68). -/
def parseNat : List Char → Option Nat
  | [] => none
  | '0' :: 'x' :: c :: cs => parseDigits 16 0 (c :: cs)
  | c :: cs => parseDigits 10 0 (c :: cs)

/-- A number below `bound`. -/
def parseBelow (bound : Nat) (w : List Char) : Option Nat :=
  (parseNat w).bind fun n => if n < bound then some n else none

/-- A bit operand, 0 or 1 (R68). -/
def parseBit (w : List Char) : Option Bit := (parseBelow 2 w).map (· == 1)

/-- A 32-bit value. -/
def parseWord (w : List Char) : Option Word := (parseBelow (2 ^ 32) w).map zext32

/-- The name of a host register (10_state.md R17). -/
def regName : HostReg → List Char
  | .cmd => "CMD".toList
  | .slot => "SLOT".toList
  | .status => "STATUS".toList
  | .config => "CONFIG".toList
  | .capacity => "CAPACITY".toList
  | .rows => "ROWS".toList
  | .cols => "COLS".toList
  | .msgInLen => "MSG_IN_LEN".toList
  | .msgOutLen => "MSG_OUT_LEN".toList
  | .bitsWritten => "BITS_WRITTEN".toList
  | .msgBufSize => "MSG_BUF_SIZE".toList

/-- A register by its name (R17, R68). -/
def parseReg (w : List Char) : Option HostReg := hostRegs.find? fun r => regName r == w

/-- A buffer by its name (R68). -/
def parseBuf (w : List Char) : Option Buffer :=
  if w = "CAR".toList then some .car
  else if w = "MIN".toList then some .min
  else if w = "MOUT".toList then some .mout
  else none

/-- A statement of one word. -/
def parseOne (m : List Char) : Option AsmStmt :=
  if m = "EMBED".toList then some (.command .embed)
  else if m = "EXTRACT".toList then some (.command .extract)
  else if m = "RDBIT".toList then some (.command .rdbit)
  else if m = "WAIT".toList then some .wait
  else none

/-- A statement of a word and one operand. -/
def parseTwo (m x : List Char) : Option AsmStmt :=
  if m = "RD".toList then (parseReg x).map .rd
  else if m = "WRBIT".toList then (parseBit x).map fun b => .command (.wrbit b)
  else if m = "RDBIT".toList then (parseWord x).map .rdbitAt
  else if m = "POLICY".toList then
    if x = "TRUNCATE".toList then some .policyTruncate
    else if x = "FAIL".toList then some .policyFail
    else none
  else none

/-- A statement of a word and two operands. -/
def parseThree (m x v : List Char) : Option AsmStmt :=
  if m = "WR".toList then (parseReg x).bind fun r => (parseWord v).map (.wr r)
  else if m = "WRBIT".toList then (parseWord x).bind fun s => (parseBit v).map (.wrbitAt s)
  else none

/-- The byte write `WRB <space>[<addr>], <byte>`, to CAR or MIN only (R68). -/
def parseWrb (sp a v : List Char) : Option AsmStmt :=
  (parseBuf sp).bind fun b => if b = .mout then none
    else (parseNat a).bind fun n => (parseBelow 256 v).map fun x => .wrb b n (BitVec.ofNat 8 x)

/-- The statement of a line's tokens. -/
def parseTokens : List Token → Option AsmStmt
  | [.word m] => parseOne m
  | [.word m, .word x] => parseTwo m x
  | [.word m, .word x, .sym ',', .word v] => parseThree m x v
  | [.word m, .str bytes] => if m = "SETMSG".toList then some (.setMsg bytes) else none
  | [.word m, .word sp, .sym '[', .word a, .sym ']'] =>
    if m = "RDB".toList then (parseBuf sp).bind fun b => (parseNat a).map (.rdb b) else none
  | [.word m, .word sp, .sym '[', .word a, .sym ']', .sym ',', .word v] =>
    if m = "WRB".toList then parseWrb sp a v else none
  | _ => none

/-- What the HOST does for one line of assembly: nothing for an empty line or a comment, the accesses of its
statement, or no answer where the line is no statement of R68 or R69. -/
def assembleLine (line : List Char) : Option (List HostStmt) :=
  match lexLine (.plain []) line with
  | none => none
  | some [] => some []
  | some ts => (parseTokens ts).map expand

end Sys2Proof.Machine
end

