-- ==== Sys2Proof/Machine/Indexer.lean ====
section
/-! DEFINITION. The raster-order slot indexer (20_memory.md R43). The CAR address of a slot is its index
(R42), so the two functions are all there is between a pixel's sample and its byte. -/

namespace Sys2Proof.Machine

/-- The coordinate of a sample: row, column, channel (R43). -/
structure Coord where
  row : Nat
  col : Nat
  ch : Nat
  deriving DecidableEq, Repr

/-- `Index(s)`: the coordinate of slot `s` (R43). -/
def indexOf (p : Params) (s : Nat) : Coord where
  row := s / (p.cols * 3)
  col := s / 3 % p.cols
  ch := s % 3

/-- `Slot(row, col, ch) = (row * COLS + col) * 3 + ch` (R43). -/
def slotOf (p : Params) (c : Coord) : Nat := (c.row * p.cols + c.col) * 3 + c.ch

/-- A coordinate of the carrier: row < ROWS, col < COLS, ch < 3 (R43). -/
def Coord.inCarrier (p : Params) (c : Coord) : Bool :=
  decide (c.row < p.rows) && decide (c.col < p.cols) && decide (c.ch < 3)

end Sys2Proof.Machine
end

