-- ==== Sys2Proof/Safety.lean ====
section
/-! DEFINITION. The terms claims use: the invariant of the block, what the HOST can observe, the end of a
command and of a run, and the specification-side readings of the bit plane. -/

namespace Sys2Proof.Machine

/-- The legal values of STATUS (10_state.md R20, R21): while a command executes BUSY alone is 1; between
commands STATUS is 0 (no command yet) or what a completion wrote. -/
def StatusLegal (s : State) : Prop :=
  (s.seq.mode ≠ .idle ∧ s.status = busyStatus) ∨
  (s.seq.mode = .idle ∧ (s.status = 0 ∨ ∃ e r t f, s.status = completeStatus e r t f))

/-- A buffer in its canonical form, inside its address range (20_memory.md R40). -/
def bufWf (b : Buffer) (s : State) : Bool := (bufOf b s).wf && memBelow (bufSize s.params b) (bufOf b s)

/-- The ranges of the sequencer's registers (10_state.md R31). -/
def SeqInRange (s : State) : Prop :=
  s.seq.idx ≤ s.params.cap ∧ s.seq.lim ≤ s.params.cap ∧ s.seq.n ≤ s.params.msgBufBytes ∧ s.seq.accn ≤ 7
    ∧ s.seq.outk ≤ s.params.outBufBytes

/-- What every state the machine reaches meets. -/
structure MachineInv (s : State) : Prop where
  /-- The constraints of 00_scope.md R6. -/
  params : s.params.wf = true
  /-- STATUS is legal (10_state.md R20, R21). -/
  status : StatusLegal s
  /-- CONFIG's reserved bits are 0 (10_state.md R22). -/
  config : s.config &&& 1 = s.config
  /-- The buffers are canonical and inside their ranges (20_memory.md R40). -/
  buffers : ∀ b, bufWf b s = true
  /-- The sequencer's registers are in range (10_state.md R31). -/
  seqRange : SeqInRange s
  /-- In EMB mode the latched registers are those of an EMBED start and IDX has not passed LIM (42_stego.md
  R110, R111). -/
  emb : s.seq.mode = .emb → s.seq.idx ≤ s.seq.lim ∧ s.seq.lim = min (payloadLen s.seq.n) s.params.cap
    ∧ s.seq.tr = decide (s.params.cap < payloadLen s.seq.n)
  /-- In EXT mode the group being assembled is the one IDX is in (42_stego.md R114). -/
  ext : s.seq.mode = .ext → s.seq.accn = s.seq.idx % 8 ∧ s.seq.outk = s.seq.idx / 8
    ∧ s.seq.acc.toNat < 2 ^ s.seq.accn
  /-- The result registers are bounded (10_state.md R27, R28). -/
  results : s.msgOutLen.toNat ≤ s.params.outBufBytes ∧ s.bitsWritten.toNat ≤ s.params.cap

/-- The HOST sees the same in two states: the same value of every register and of every byte of every buffer
(10_state.md R31, R34: no sequencer register is host-readable). -/
def SameToHost (s t : State) : Prop :=
  s.params = t.params ∧ (∀ r, readReg s r = readReg t r) ∧
    ∀ b a, a < bufSize s.params b → memRead b (bufOf b s) a = memRead b (bufOf b t) a

/-- A command has ended (70_reset_and_hazards.md R148). -/
def commandEnded (s : State) : Bool := !statusBusy s.status && statusDone s.status

/-- A run has ended: the HOST makes no further access and the sequencer is idle (R148). -/
def runEnded (s : State) : Bool := s.held.isNone && s.hostQueue.isEmpty && decide (s.seq.mode = .idle)

/-- The message of EMBED: `MIN[0] ... MIN[MSG_IN_LEN-1]` (42_stego.md R95). -/
def message (s : State) : List Byte := minBytes s (msgLen s)

/-- The slots an EMBED that succeeds writes: `min(8N + 16, CAP)` (42_stego.md R95). -/
def embedLimit (s : State) : Nat := min (payloadLen (msgLen s)) s.params.cap

/-- The payload does not fit the carrier: `8N + 16 > CAP` (00_scope.md R14). -/
def overflows (s : State) : Bool := decide (s.params.cap < payloadLen (msgLen s))

/-- EMBED succeeds: the message is in the buffer, and it fits or the policy is TRUNCATE (42_stego.md R95). -/
def embedSucceeds (s : State) : Bool :=
  decide (msgLen s ≤ s.params.msgBufBytes) && !(overflows s && policyFail s)

/-- Whose turn the next step takes: the listed one, or by default the executing command's, or the HOST's between
commands (log entry 6). Either reset turn is the reset's. -/
def mover (s : State) : Turn :=
  match s.turns with
  | [] => if s.seq.mode = .idle then .host else .seq
  | .resetInStep :: _ => .reset
  | t :: _ => t

/-- `k` steps of the machine, ending at the first fault or refusal. -/
def runFor : Nat → State → Result
  | 0, s => .next s
  | k + 1, s =>
    match step s with
    | .next t => runFor k t
    | .fault r => .fault r
    | .refused r => .refused r

/-- The most sequencer steps a command takes from its decode step to its completion (42_stego.md R116). -/
def seqBound (i : Instr) (s : State) : Nat :=
  match i with
  | .embed => embedLimit s + 2
  | .extract => s.params.cap + 2
  | .wrbit _ => 1
  | .rdbit => 1

/-- The machine with only what WRBIT, RDBIT and an error may write replaced: the carrier and STATUS, the
sequencer idle. -/
def afterSlotCommand (s : State) (car : Memory) (status : Word) : State :=
  { s with car := car, status := status, seq := { s.seq with mode := .idle } }

/-- An EMBED that fails with STATUS `w` (42_stego.md R95): BITS_WRITTEN is 0, the sequencer is idle, and nothing
else changes. -/
def afterFailedEmbed (s : State) (w : Word) : State :=
  { s with bitsWritten := 0, status := w, seq := { s.seq with mode := .idle } }

/-- A HOST access is a bus error (20_memory.md R55, R41, R49): a REG access of the wrong width or alignment or past
the last register, a buffer access of the wrong width or outside the buffer, a write to MOUT. -/
def isBusError (p : Params) : HostAccess → Prop
  | .regRead width off => width ≠ 32 ∨ off % 4 ≠ 0 ∨ 0x28 < off
  | .regWrite width off _ => width ≠ 32 ∨ off % 4 ≠ 0 ∨ 0x28 < off
  | .bufRead b width addr => width ≠ 8 ∨ bufSize p b ≤ addr
  | .bufWrite b width addr _ => b = .mout ∨ width ≠ 8 ∨ bufSize p b ≤ addr

/-- The read-only registers (20_memory.md R56). -/
def readOnlyRegs : List HostReg := [.status, .capacity, .rows, .cols, .msgOutLen, .bitsWritten, .msgBufSize]

end Sys2Proof.Machine
end

