-- ==== Sys2Proof/Certificates/Slice0/Obligations.lean ====
section
/-! DEFINITION. The statements about the model, each with the rule of spec/ it formalises. -/

open Sys2Proof Sys2Proof.Machine

/-! ## Encoding -/

/-- 30_encoding.md R63: the exact words of the four commands, and every other word ILLEGAL. -/
def Obligations.DecodeAcceptsExactlyTheFiveWords : Prop :=
  ∀ w : Word, (w = 0x00000001 → decode w = .command .embed) ∧ (w = 0x00000002 → decode w = .command .extract)
    ∧ (w = 0x00000003 → decode w = .command (.wrbit false)) ∧ (w = 0x00000013 → decode w = .command (.wrbit true))
    ∧ (w = 0x00000004 → decode w = .command .rdbit)
    ∧ (w ∉ [0x00000001, 0x00000002, 0x00000003, 0x00000013, 0x00000004] → ∃ why, decode w = .illegal why)

/-- A command decodes from its encoding and from no other word (derived from R60, R62, R63). -/
def Obligations.DecodeInvertsEncode : Prop :=
  ∀ (i : Instr) (w : Word), i.wf = true → (decode w = .command i ↔ w = encode i)

/-- Words written out from R60's format decode to their commands (sanity). -/
def Obligations.WrittenOutWordsDecode : Prop :=
  decode 0b00000000000000000000000000000001#32 = .command .embed
    ∧ decode 0b00000000000000000000000000000010#32 = .command .extract
    ∧ decode 0b00000000000000000000000000010011#32 = .command (.wrbit true)
    ∧ decode 0b00000000000000000000000000000011#32 = .command (.wrbit false)
    ∧ decode 0b00000000000000000000000000000100#32 = .command .rdbit

/-! ## Bit codec and slot indexer -/

/-- 40_bitcodec.md R75 and R76: length and every bit of `toBits`. -/
def Obligations.ToBitsIsMsbFirst : Prop :=
  (∀ m : List Byte, (toBits m).length = 8 * m.length) ∧
    ∀ (m : List Byte) (i : Nat), i < 8 * m.length → (toBits m)[i]? = some ((m.getD (i / 8) 0).getLsbD (7 - i % 8))

/-- 40_bitcodec.md R82: `fromBits(toBits(B)) = B`. -/
def Obligations.FromBitsInvertsToBits : Prop :=
  ∀ m : List Byte, fromBits (toBits m) = some m

/-- 40_bitcodec.md R77: a stream whose length is a multiple of 8 decodes to one byte per group, most-significant bit
first; any other stream is refused (R78's last sentence). -/
def Obligations.FromBitsDecodesWholeGroups : Prop :=
  ∀ g : List Bit, (g.length % 8 ≠ 0 → fromBits g = none) ∧
    (g.length % 8 = 0 → ∃ m, fromBits g = some m ∧ m.length = g.length / 8 ∧ toBits m = g ∧
      ∀ j, j < g.length / 8 → (m.getD j 0).toNat
        = bitNat (g.getD (8 * j) false) * 128 + bitNat (g.getD (8 * j + 1) false) * 64
          + bitNat (g.getD (8 * j + 2) false) * 32 + bitNat (g.getD (8 * j + 3) false) * 16
          + bitNat (g.getD (8 * j + 4) false) * 8 + bitNat (g.getD (8 * j + 5) false) * 4
          + bitNat (g.getD (8 * j + 6) false) * 2 + bitNat (g.getD (8 * j + 7) false))

/-- 40_bitcodec.md R79 and R80: the payload's length and its bit at every slot: a message bit, then fifteen 1 bits and
a 0 bit; `P(B, s)` is that bit. -/
def Obligations.PayloadBitAtSlot : Prop :=
  ∀ m : List Byte, (payloadBits m).length = 8 * m.length + 16 ∧ payloadBits m = toBits m ++ term ∧
    (∀ s, s < 8 * m.length → (payloadBits m)[s]? = some ((m.getD (s / 8) 0).getLsbD (7 - s % 8))) ∧
    (∀ j, j < 16 → (payloadBits m)[8 * m.length + j]? = some (decide (j ≠ 15)) ∧ term[j]? = some (decide (j ≠ 15))) ∧
    ∀ s, s < 8 * m.length + 16 → (payloadBits m)[s]? = some (payloadBit m s)

/-- 40_bitcodec.md R83: the terminator as bytes, and the only byte that satisfies `IsStop`. -/
def Obligations.TerminatorBytesAndStopGroup : Prop :=
  fromBits term = some [0xFF, 0xFE] ∧ isStop 0xFF = true ∧ isStop 0xFE = false ∧
    (∀ v : Byte, isStop v = true ↔ v = 0xFF) ∧
    ∀ (m : List Byte) (j : Nat), j < m.length → m.getD j 0 = 0xFF →
      ∀ i, i < 8 → (payloadBits m)[8 * j + i]? = some true

/-- 20_memory.md R44: `Index` and `Slot` are inverse bijections, in raster-then-channel order. -/
def Obligations.SlotIndexerIsABijection : Prop :=
  ∀ p : Params,
    (∀ s, s < p.cap → (indexOf p s).inCarrier p = true ∧ slotOf p (indexOf p s) = s
      ∧ s / 3 = (indexOf p s).row * p.cols + (indexOf p s).col ∧ s % 3 = (indexOf p s).ch) ∧
    (∀ c : Coord, c.inCarrier p = true → slotOf p c < p.cap ∧ indexOf p (slotOf p c) = c) ∧
    (∀ m s, m ≤ p.cap → s < m →
      (indexOf p s).row * p.cols + (indexOf p s).col < (m + 2) / 3) ∧
    (p.cap = 0 → ∀ c : Coord, c.inCarrier p = false)

/-! ## Buffers and the bit plane -/

/-- LsbRead and LsbWrite (derived from 20_memory.md R46, R47): bit 0 of slot `s` becomes `b`, bits 7:1 stay, no other
slot changes, and writing the current bit leaves every sample. That a canonical carrier stays canonical, and is the same
list when a written sample gets its current bit, is about the model's form of a buffer (log entry 2). -/
def Obligations.LsbWriteSetsOneBit : Prop :=
  (∀ (m : Memory) (s : Nat) (b : Bit), lsbRead (lsbWrite m s b) s = b
      ∧ (memRead .car (lsbWrite m s b) s).toNat = (memRead .car m s).toNat / 2 * 2 + bitNat b
      ∧ (∀ a, a ≠ s → memRead .car (lsbWrite m s b) a = memRead .car m a)
      ∧ lsbRead m s = (memRead .car m s).getLsbD 0
      ∧ ∀ a, memRead .car (lsbWrite m s (lsbRead m s)) a = memRead .car m a) ∧
  ∀ (m : Memory) (s : Nat) (b : Bit), m.wf = true →
    (lsbWrite m s b).wf = true ∧ (memGet m s ≠ none → lsbWrite m s (lsbRead m s) = m)

/-- Two canonical buffers with the same written bytes are the same data (the model's canonical form, log entry 2;
derived). -/
def Obligations.CanonicalBuffersAreEqualData : Prop :=
  ∀ m n : Memory, m.wf = true → n.wf = true → (∀ a, memGet m a = memGet n a) → m = n

/-- A HOST byte write to CAR or MIN completes, is read back whatever its value, and changes no other byte and
nothing else (derived from 20_memory.md R45, R50, R52). -/
def Obligations.HostByteWriteReadsBack : Prop :=
  ∀ (s : State) (b : Buffer) (a : Nat) (v : Byte), b ≠ .mout → a < bufSize s.params b →
    ∃ t, hostAccess (.bufWrite b 8 a v) s = .next t
      ∧ hostAccess (.bufRead b 8 a) t = .next { t with hostGot := .byte v :: t.hostGot }
      ∧ (∀ c d, ¬(c = b ∧ d = a) → memRead c (bufOf c t) d = memRead c (bufOf c s) d)
      ∧ t = { s with car := t.car, mIn := t.mIn }

/-! ## The host port -/

/-- 30_encoding.md R65: what a HOST write to CMD does when it takes effect with BUSY = 0, and nothing else. -/
def Obligations.CommandIssue : Prop :=
  ∀ (s : State) (w : Word), statusBusy s.status = false →
    hostAccess (.regWrite 32 0x00 w) s
      = .next { s with seq := { s.seq with cw := w, mode := .dec }, status := 0x00000001 }

/-- With BUSY = 0 between commands, the HOST's held access, else its next one, takes effect in the machine's next step
(derived from 20_memory.md R51, R52; queue, held slot and schedule are the model's, log entries 5, 6 and 13). -/
def Obligations.HostAccessesTakeEffectInOrder : Prop :=
  ∀ s : State, s.turns = [] → s.seq.mode = .idle → statusBusy s.status = false →
    (∀ a, s.held = some a → step s = hostAccess a { s with held := none }) ∧
    (∀ a rest, s.held = none → s.hostQueue = .access a :: rest → step s = hostAccess a { s with hostQueue := rest })

/-- At the HOST's turn (log entries 5, 6 and 13; derived from 20_memory.md R51): while BUSY = 1 a STATUS read is
answered at once, every other access is held and the HOST makes no further access; the held access takes effect when
BUSY = 0. -/
def Obligations.AccessesAreHeldWhileBusy : Prop :=
  ∀ (s : State) (ts : List Turn), s.turns = .host :: ts →
    (∀ a rest, statusBusy s.status = true → s.held = none → s.hostQueue = .access a :: rest →
      a ≠ .regRead 32 0x08 → step s = .next { s with turns := ts, hostQueue := rest, held := some a }) ∧
    (∀ rest, statusBusy s.status = true → s.held = none → s.hostQueue = .access (.regRead 32 0x08) :: rest →
      step s = .next { s with turns := ts, hostQueue := rest, hostGot := .word s.status :: s.hostGot }) ∧
    (∀ a, statusBusy s.status = true → s.held = some a → step s = .next { s with turns := ts }) ∧
    (∀ a, statusBusy s.status = false → s.held = some a →
      step s = hostAccess a { s with turns := ts, held := none })

/-- No partial effect of a command reaches the HOST (derived from 10_state.md R34): while a command executes a HOST
turn completes, the HOST learns at most that STATUS is 0x00000001, and the block is unchanged. -/
def Obligations.HostSeesNoPartialEffect : Prop :=
  ∀ (s : State) (ts : List Turn), MachineInv s → s.seq.mode ≠ .idle → s.turns = .host :: ts →
    ∃ t, step s = .next t ∧ (t.hostGot = s.hostGot ∨ t.hostGot = .word 0x00000001 :: s.hostGot)
      ∧ t = { s with turns := ts, hostQueue := t.hostQueue, held := t.held, hostGot := t.hostGot }

/-- The polling loop WAIT (derived from 30_encoding.md R69): a read of STATUS at each HOST turn, and the loop goes on
exactly while BUSY = 1. -/
def Obligations.WaitPollsStatus : Prop :=
  ∀ (s : State) (ts : List Turn) (rest : List HostStmt),
    s.turns = .host :: ts → s.held = none → s.hostQueue = .wait :: rest →
    step s = .next { s with
      turns := ts
      hostGot := .word s.status :: s.hostGot
      hostQueue := if statusBusy s.status then .wait :: rest else rest }

/-- 20_memory.md R55: a bus error is refused, and every other access takes effect. -/
def Obligations.BusErrorsAreRefused : Prop :=
  ∀ (a : HostAccess) (s : State),
    (isBusError s.params a → ∃ e, hostAccess a s = .refused (.busError e)) ∧
    (¬ isBusError s.params a → ∃ t, hostAccess a s = .next t)

/-- 20_memory.md R56: a write to a read-only register changes nothing, a reserved bit of CONFIG is ignored and reads
0, and CMD reads 0. -/
def Obligations.ReadOnlyRegistersIgnoreWrites : Prop :=
  ∀ (s : State) (v : Word),
    (∀ r ∈ readOnlyRegs, hostAccess (.regWrite 32 (regOffset r) v) s = .next s) ∧
    (hostAccess (.regWrite 32 0x0C v) s = .next { s with config := v &&& 1 }) ∧
    (hostAccess (.regRead 32 0x0C) s = .next { s with hostGot := .word (s.config &&& 1) :: s.hostGot }) ∧
    (hostAccess (.regRead 32 0x00) s = .next { s with hostGot := .word 0 :: s.hostGot })

/-- 10_state.md R19 and R26: SLOT and MSG_IN_LEN take every 32-bit value and read back unchanged (the reset values and
the failures of the commands are other statements; derived). -/
def Obligations.OperandRegistersReadBack : Prop :=
  ∀ (s : State) (v : Word),
    (∃ t, hostAccess (.regWrite 32 0x04 v) s = .next t ∧ t = { s with slot := v }
      ∧ hostAccess (.regRead 32 0x04) t = .next { t with hostGot := .word v :: t.hostGot }) ∧
    (∃ t, hostAccess (.regWrite 32 0x1C v) s = .next t ∧ t = { s with msgInLen := v }
      ∧ hostAccess (.regRead 32 0x1C) t = .next { t with hostGot := .word v :: t.hostGot })

/-- 10_state.md R23, R24, R25, R29: the parameter registers read their constants in every state, and no step changes
the parameters. -/
def Obligations.ParameterRegistersAreConstant : Prop :=
  (∀ s : State,
    hostAccess (.regRead 32 0x10) s
      = .next { s with hostGot := .word (BitVec.ofNat 32 (s.params.rows * s.params.cols * 3)) :: s.hostGot }
    ∧ hostAccess (.regRead 32 0x14) s = .next { s with hostGot := .word (BitVec.ofNat 32 s.params.rows) :: s.hostGot }
    ∧ hostAccess (.regRead 32 0x18) s = .next { s with hostGot := .word (BitVec.ofNat 32 s.params.cols) :: s.hostGot }
    ∧ hostAccess (.regRead 32 0x28) s
      = .next { s with hostGot := .word (BitVec.ofNat 32 s.params.msgBufBytes) :: s.hostGot }) ∧
  ∀ s t : State, step s = .next t → t.params = s.params

/-- Host assembly (derived from 30_encoding.md R68, R69): lines of text and the accesses they stand for. -/
def Obligations.AssemblyStandsForAccesses : Prop :=
  assembleLine "EMBED".toList = some [.access (.regWrite 32 0x00 0x00000001)]
    ∧ assembleLine "WRBIT 5, 1 ; set".toList
      = some [.access (.regWrite 32 0x04 5), .access (.regWrite 32 0x00 0x00000013)]
    ∧ assembleLine "RDBIT 5".toList
      = some [.access (.regWrite 32 0x04 5), .access (.regWrite 32 0x00 0x00000004), .access (.regRead 32 0x08)]
    ∧ assembleLine "SETMSG \"Hi\"".toList
      = some [.access (.bufWrite .min 8 0 0x48), .access (.bufWrite .min 8 1 0x69), .access (.regWrite 32 0x1C 2)]
    ∧ assembleLine "POLICY FAIL".toList = some [.access (.regWrite 32 0x0C 1)]
    ∧ assembleLine "WRB MOUT[0], 1".toList = none

/-! ## Completion and errors -/

/-- 60_exceptions.md R121: every field of the STATUS a completion writes, the sequencer idle, and nothing else; every
command completes; the HOST's next move after it is its held access. -/
def Obligations.CompleteWritesStatus : Prop :=
  (∀ (e : ErrorCode) (r t f : Bit) (s : State),
    complete e r t f s = { s with status := (complete e r t f s).status, seq := { s.seq with mode := .idle } }
    ∧ statusBusy (complete e r t f s).status = false ∧ statusDone (complete e r t f s).status = true
    ∧ statusErr (complete e r t f s).status = decide (errorNumber e ≠ 0)
    ∧ (statusEcode (complete e r t f s).status).toNat = errorNumber e
    ∧ statusRbit (complete e r t f s).status = r ∧ statusTrunc (complete e r t f s).status = t
    ∧ statusFound (complete e r t f s).status = f
    ∧ (complete e r t f s).status.getLsbD 3 = false
    ∧ (∀ i, 11 ≤ i → (complete e r t f s).status.getLsbD i = false)
    ∧ raiseError e s = complete e false false false s
    ∧ ∀ a, s.held = some a → hostTurn (complete e r t f s) = hostAccess a ((complete e r t f s).setHeld none)) ∧
  ∀ (i : Instr) (s : State), ∃ u e r t f, exec i s = .next u ∧ u.status = completeStatus e r t f ∧ u.seq.mode = .idle

/-- 30_encoding.md R64: a word with an opcode 0x0 or 0x5 to 0xF, with a reserved bit set, or with bit 4 set on another
opcode than WRBIT's completes in the decode step with ILLEGAL_CMD and has no other effect. -/
def Obligations.IllegalWordCompletesAtOnce : Prop :=
  ∀ s : State, s.seq.mode = .dec →
    (opField s.seq.cw ∉ [0x1, 0x2, 0x3, 0x4] ∨ rsvField s.seq.cw ≠ 0 ∨ (bField s.seq.cw = true ∧ opField s.seq.cw ≠ 0x3)) →
    (∃ why, decode s.seq.cw = .illegal why) ∧
    seqStep s = .next { s with status := 0x00000016, seq := { s.seq with mode := .idle } }

/-- 60_exceptions.md R122: what a command that completes with an error leaves; and the same of a whole command word, an
ILLEGAL one too, from its issue on (`SEQ.CW` then holds the word). -/
def Obligations.ErrorsChangeNothingElse : Prop :=
  (∀ (i : Instr) (s t : State), exec i s = .next t → statusEcode t.status ≠ 0 →
    t = { s with
      status := t.status
      seq := { s.seq with mode := .idle }
      bitsWritten := if i = .embed then 0 else s.bitsWritten }) ∧
  ∀ (w : Word) (s t : State), execWord w s = .next t → statusEcode t.status ≠ 0 →
    t = { s with
      status := t.status
      seq := { s.seq with cw := w, mode := .idle }
      bitsWritten := if w = 0x00000001 then 0 else s.bitsWritten }

/-- The errors of each command and their priority (derived from 60_exceptions.md R120, R123): EMBED tests the message
length before the capacity, WRBIT and RDBIT fail exactly on a slot that does not exist, EXTRACT never fails. -/
def Obligations.ErrorCodesAndPriority : Prop :=
  ∀ (s : State) (b : Bit),
    (s.params.msgBufBytes < msgLen s → exec .embed s = .next (afterFailedEmbed s 0x00000046)) ∧
    (msgLen s ≤ s.params.msgBufBytes → s.params.cap < 8 * msgLen s + 16 → s.config.getLsbD 0 = true →
      exec .embed s = .next (afterFailedEmbed s 0x00000036)) ∧
    (embedSucceeds s = true → ∃ t, exec .embed s = .next t ∧ statusEcode t.status = 0 ∧ statusErr t.status = false) ∧
    (∃ t, exec .extract s = .next t ∧ statusEcode t.status = 0 ∧ statusErr t.status = false) ∧
    (∃ t, exec (.wrbit b) s = .next t ∧ ((statusEcode t.status).toNat = 2 ↔ s.params.cap ≤ s.slot.toNat)
      ∧ (statusEcode t.status = 0 ↔ s.slot.toNat < s.params.cap)) ∧
    (∃ t, exec .rdbit s = .next t ∧ ((statusEcode t.status).toNat = 2 ↔ s.params.cap ≤ s.slot.toNat)
      ∧ (statusEcode t.status = 0 ↔ s.slot.toNat < s.params.cap))

/-! ## WRBIT and RDBIT -/

/-- 41_slot_access.md R88: WRBIT's words, its result on every slot and its frame. -/
def Obligations.WrbitWritesOneSlot : Prop :=
  decode 0x00000003 = .command (.wrbit false) ∧ decode 0x00000013 = .command (.wrbit true) ∧
  ∀ (s : State) (b : Bit),
    (s.slot.toNat < s.params.cap → ∃ car, exec (.wrbit b) s = .next (afterSlotCommand s car 0x00000002)
      ∧ (memRead .car car s.slot.toNat).toNat = (memRead .car s.car s.slot.toNat).toNat / 2 * 2 + bitNat b
      ∧ ∀ a, a ≠ s.slot.toNat → memRead .car car a = memRead .car s.car a) ∧
    (s.params.cap ≤ s.slot.toNat → exec (.wrbit b) s = .next (afterSlotCommand s s.car 0x00000026))

/-- 41_slot_access.md R89: WRBIT is idempotent and touches one slot. -/
def Obligations.WrbitIsIdempotent : Prop :=
  ∀ (s : State) (b : Bit), MachineInv s → ∃ t, exec (.wrbit b) s = .next t ∧ exec (.wrbit b) t = .next t
    ∧ ∀ a, a ≠ s.slot.toNat → memRead .car t.car a = memRead .car s.car a

/-- 41_slot_access.md R90: RDBIT's word, its result on every slot and its frame. -/
def Obligations.RdbitReadsOneSlot : Prop :=
  decode 0x00000004 = .command .rdbit ∧
  ∀ s : State,
    (s.slot.toNat < s.params.cap → exec .rdbit s = .next (afterSlotCommand s s.car
      (if (memRead .car s.car s.slot.toNat).getLsbD 0 then 0x00000102 else 0x00000002))) ∧
    (s.params.cap ≤ s.slot.toNat → exec .rdbit s = .next (afterSlotCommand s s.car 0x00000026))

/-- 41_slot_access.md R91: RDBIT after WRBIT on the same slot, whatever the HOST does to the rest in between. -/
def Obligations.RdbitAfterWrbit : Prop :=
  ∀ (s : State) (b : Bit), s.slot.toNat < s.params.cap → ∃ t, exec (.wrbit b) s = .next t ∧
    ∀ u : State, u.params = t.params → u.car = t.car → u.slot = t.slot →
      ∃ v, exec .rdbit u = .next v ∧ statusRbit v.status = b

/-! ## EMBED and EXTRACT -/

/-- 42_stego.md R95: EMBED's word, its two failures, and an EMBED that succeeds: its result at every slot and its
frame. The frame's `seq` is the sequencer's own registers, which are left free here. -/
def Obligations.EmbedWritesThePayload : Prop :=
  decode 0x00000001 = .command .embed ∧
  ∀ s : State, MachineInv s →
    (s.params.msgBufBytes < msgLen s → exec .embed s = .next (afterFailedEmbed s 0x00000046)) ∧
    (msgLen s ≤ s.params.msgBufBytes → s.params.cap < 8 * msgLen s + 16 → s.config.getLsbD 0 = true →
      exec .embed s = .next (afterFailedEmbed s 0x00000036)) ∧
    (msgLen s ≤ s.params.msgBufBytes → ¬ (s.params.cap < 8 * msgLen s + 16 ∧ s.config.getLsbD 0 = true) →
    ∃ t, exec .embed s = .next t
      ∧ (∀ a, a < min (8 * msgLen s + 16) s.params.cap →
          (memRead .car t.car a).toNat = (memRead .car s.car a).toNat / 2 * 2 + bitNat (payloadBit (message s) a))
      ∧ (∀ a, min (8 * msgLen s + 16) s.params.cap ≤ a → memRead .car t.car a = memRead .car s.car a)
      ∧ t.bitsWritten.toNat = min (8 * msgLen s + 16) s.params.cap
      ∧ t.status = (if s.params.cap < 8 * msgLen s + 16 then 0x00000202 else 0x00000002)
      ∧ t.seq.mode = .idle
      ∧ t = { s with car := t.car, bitsWritten := t.bitsWritten, status := t.status, seq := t.seq })

/-- 42_stego.md R97: whether EMBED succeeds or fails, bits 7:1 of every sample stay, and only slots of the written
region, in its first pixels, change. -/
def Obligations.EmbedChangesOnlyLeastSignificantBits : Prop :=
  ∀ s : State, ∃ t, exec .embed s = .next t ∧
    ∀ a, (memRead .car t.car a).toNat / 2 = (memRead .car s.car a).toNat / 2 ∧
      (memRead .car t.car a ≠ memRead .car s.car a → a < min (8 * msgLen s + 16) s.params.cap ∧
        (indexOf s.params a).row * s.params.cols + (indexOf s.params a).col
          < (min (8 * msgLen s + 16) s.params.cap + 2) / 3)

/-- 42_stego.md R99 and R100: EXTRACT's word, and it copies the groups before the first stop group, or all of them, and
its frame (`seq` is the sequencer's own registers, left free here). -/
def Obligations.ExtractCopiesGroupsToTheStopGroup : Prop :=
  decode 0x00000002 = .command .extract ∧
  ∀ s : State, MachineInv s → ∃ t k, exec .extract s = .next t ∧ t.msgOutLen.toNat = k ∧ k ≤ s.params.cap / 8
    ∧ (∀ j, j < k → memRead .mout t.mOut j ≠ 0xFF ∧
        ∀ i, i < 8 → (memRead .mout t.mOut j).getLsbD (7 - i) = (memRead .car s.car (8 * j + i)).getLsbD 0)
    ∧ (∀ a, k ≤ a → memRead .mout t.mOut a = memRead .mout s.mOut a)
    ∧ (k < s.params.cap / 8 → t.status = 0x00000402 ∧ ∀ i, i < 8 → (memRead .car s.car (8 * k + i)).getLsbD 0 = true)
    ∧ (k = s.params.cap / 8 → t.status = 0x00000002)
    ∧ t.seq.mode = .idle
    ∧ t = { s with mOut := t.mOut, msgOutLen := t.msgOutLen, status := t.status, seq := t.seq }

/-- 42_stego.md R101: the round trip. The HOST may change anything but the carrier in between. -/
def Obligations.EmbedThenExtractRoundTrip : Prop :=
  ∀ s : State, MachineInv s → msgLen s ≤ s.params.msgBufBytes → 8 * msgLen s + 16 ≤ s.params.cap →
    (∀ j, j < msgLen s → memRead .min s.mIn j ≠ 0xFF) →
    ∃ t, exec .embed s = .next t ∧ statusErr t.status = false ∧
      ∀ u : State, MachineInv u → u.params = t.params → u.car = t.car →
        ∃ v, exec .extract u = .next v ∧ v.msgOutLen = s.msgInLen ∧ statusFound v.status = true
          ∧ ∀ j, j < msgLen s → memRead .mout v.mOut j = memRead .min s.mIn j

/-- 42_stego.md R102: a message byte 0xFF ends the extracted message. -/
def Obligations.ExtractStopsAtFirstFF : Prop :=
  ∀ (s : State) (j : Nat), MachineInv s → msgLen s ≤ s.params.msgBufBytes → 8 * msgLen s + 16 ≤ s.params.cap →
    j < msgLen s → memRead .min s.mIn j = 0xFF → (∀ i, i < j → memRead .min s.mIn i ≠ 0xFF) →
    ∃ t, exec .embed s = .next t ∧ statusErr t.status = false ∧
      ∀ u : State, MachineInv u → u.params = t.params → u.car = t.car →
        ∃ v, exec .extract u = .next v ∧ v.msgOutLen.toNat = j ∧ statusFound v.status = true
          ∧ ∀ i, i < j → memRead .mout v.mOut i = memRead .min s.mIn i

/-- 42_stego.md R103: the empty message in each range of the capacity. -/
def Obligations.EmptyMessage : Prop :=
  ∀ s : State, MachineInv s → msgLen s = 0 →
    (16 ≤ s.params.cap ∨ s.config.getLsbD 0 = false →
      ∃ t, exec .embed s = .next t ∧ statusErr t.status = false
        ∧ t.bitsWritten.toNat = min 16 s.params.cap ∧ statusTrunc t.status = decide (s.params.cap < 16)
        ∧ (∀ a, a < min 16 s.params.cap →
            (memRead .car t.car a).toNat = (memRead .car s.car a).toNat / 2 * 2 + (if a = 15 then 0 else 1))
        ∧ (∀ a, min 16 s.params.cap ≤ a → memRead .car t.car a = memRead .car s.car a)
        ∧ ∀ u : State, MachineInv u → u.params = t.params → u.car = t.car →
            ∃ v, exec .extract u = .next v ∧ v.msgOutLen = 0
              ∧ statusFound v.status = decide (8 ≤ s.params.cap)) ∧
    (s.params.cap < 16 → s.config.getLsbD 0 = true → exec .embed s = .next (afterFailedEmbed s 0x00000036))

/-- 42_stego.md R104: a truncated EMBED, then EXTRACT. -/
def Obligations.TruncatedEmbedThenExtract : Prop :=
  ∀ s : State, MachineInv s → msgLen s ≤ s.params.msgBufBytes → s.config.getLsbD 0 = false →
    s.params.cap < 8 * msgLen s + 16 →
    (∀ j, j < min (msgLen s) (s.params.cap / 8) → memRead .min s.mIn j ≠ 0xFF) →
    ∃ t, exec .embed s = .next t ∧ t.status = 0x00000202 ∧
      ∀ u : State, MachineInv u → u.params = t.params → u.car = t.car →
        ∃ v, exec .extract u = .next v
          ∧ (msgLen s < s.params.cap / 8 → v.msgOutLen.toNat = msgLen s ∧ statusFound v.status = true
              ∧ 8 * msgLen s + 8 ≤ s.params.cap)
          ∧ (s.params.cap / 8 ≤ msgLen s → v.msgOutLen.toNat = s.params.cap / 8 ∧ statusFound v.status = false)
          ∧ ∀ j, j < min (msgLen s) (s.params.cap / 8) → memRead .mout v.mOut j = memRead .min s.mIn j

/-- 42_stego.md R105: capacity 24 and a message of four ASCII bytes, under both policies. -/
def Obligations.CapacityExhaustionScenario : Prop :=
  ∀ s : State, MachineInv s → s.params.cap = 24 → msgLen s = 4 → 4 ≤ s.params.msgBufBytes →
    (∀ j, j < 4 → (memRead .min s.mIn j).toNat < 128) →
    (s.config.getLsbD 0 = false → ∃ t, exec .embed s = .next t ∧ t.bitsWritten = 24
      ∧ statusTrunc t.status = true ∧ statusErr t.status = false
      ∧ ∀ a, a < 24 → (memRead .car t.car a).getLsbD 0 = (memRead .min s.mIn (a / 8)).getLsbD (7 - a % 8)) ∧
    (s.config.getLsbD 0 = true → ∃ t, exec .embed s = .next t ∧ t.car = s.car
      ∧ statusErr t.status = true ∧ (statusEcode t.status).toNat = 3)

/-- 42_stego.md R98: EMBED is a function of the carrier, the message, OVF and the parameters; EXTRACT of the carrier and
the parameters: of what their bytes read, however the model lists them. -/
def Obligations.EmbedAndExtractAreDeterministic : Prop :=
  ∀ s t : State, s.params = t.params → (∀ a, a < s.params.cap → memRead .car s.car a = memRead .car t.car a) →
    (s.msgInLen = t.msgInLen → s.config.getLsbD 0 = t.config.getLsbD 0 →
      (∀ j, j < msgLen s → memRead .min s.mIn j = memRead .min t.mIn j) →
      ∃ u v, exec .embed s = .next u ∧ exec .embed t = .next v ∧ u.bitsWritten = v.bitsWritten ∧ u.status = v.status
        ∧ ∀ a, a < s.params.cap → memRead .car u.car a = memRead .car v.car a) ∧
    (MachineInv s → MachineInv t → ∃ u v, exec .extract s = .next u ∧ exec .extract t = .next v ∧ u.msgOutLen = v.msgOutLen
      ∧ u.status = v.status ∧ ∀ j, j < u.msgOutLen.toNat → memRead .mout u.mOut j = memRead .mout v.mOut j)

/-! ## The sequencer -/

/-- From the decode step, the sequencer's steps reach the state of the command's meaning, within the number of steps
`seqBound` (derived from 42_stego.md R115, R116). R115 gives five values of that state; that the sequencer's own registers
agree too, so that the states are equal, is the model's inference (log entry 7). -/
def Obligations.SequencerAgreesWithMeaning : Prop :=
  ∀ (s : State) (i : Instr) (k : Nat), s.seq.mode = .dec → decode s.seq.cw = .command i → seqBound i s ≤ k →
    seqRun k s = exec i s

/-- Listed sequencer turns of the machine are sequencer steps (the model's schedule, log entry 6; derived from
30_encoding.md R66, R67). -/
def Obligations.SequencerTurnsRunTheSequencer : Prop :=
  ∀ (k : Nat) (s : State),
    runFor k (s.setTurns (List.replicate k .seq)) = seqRun k (s.setTurns [])

/-- 42_stego.md R112: a started EMBED or EXTRACT begins at slot 0, and each sequencer step touches the one slot IDX names
and advances it by one, or completes. -/
def Obligations.SlotsAreVisitedInOrder : Prop :=
  (∀ s t : State, s.seq.mode = .dec → seqStep s = .next t → t.seq.mode ≠ .idle → t.seq.idx = 0 ∧ t.car = s.car) ∧
  (∀ s t : State, s.seq.mode = .emb → seqStep s = .next t →
    (t.seq.mode = .emb ∧ t.seq.idx = s.seq.idx + 1 ∧ ∀ a, a ≠ s.seq.idx → memRead .car t.car a = memRead .car s.car a)
    ∨ (t.seq.mode = .idle ∧ t.seq.idx = s.seq.idx ∧ t.car = s.car)) ∧
  (∀ s t : State, s.seq.mode = .ext → seqStep s = .next t →
    t.car = s.car ∧ (t.seq.idx = s.seq.idx + 1 ∨ (t.seq.mode = .idle ∧ t.seq.idx = s.seq.idx)) ∧
    ∀ car : Memory, memRead .car car s.seq.idx = memRead .car s.car s.seq.idx →
      seqStep (s.setCar car) = .next (t.setCar car))

/-- A step runs the decoded command (derived from 30_encoding.md R66, R67): when the latched word decodes to `i` and no
turn is listed, step is exec of `i`, and for an ILLEGAL word its completion; and a fetched word runs as the next step.
No turn listed is the model's default schedule (log entry 6), and `withFetchWord` stands for an issue (log entry 5). -/
def Obligations.StepRunsTheDecodedCommand : Prop :=
  (∀ (s : State) (i : Instr), s.turns = [] → s.seq.mode = .dec → decode s.seq.cw = .command i → step s = exec i s) ∧
  (∀ (s : State) (why : IllegalWord), s.turns = [] → s.seq.mode = .dec → decode s.seq.cw = .illegal why →
    step s = .next { s with status := 0x00000016, seq := { s.seq with mode := .idle } }) ∧
  ∀ (s : State) (i : Instr), step (s.withFetchWord 32 (encode i).toNat)
    = exec i { s with seq := { s.seq with cw := encode i, mode := .dec }, status := 0x00000001, turns := [] }

/-! ## Reset and the whole machine -/

/-- 70_reset_and_hazards.md R140: what reset leaves, from any state. The sequencer's other registers are unspecified
there and stay free here. -/
def Obligations.ResetSetsTheRegisters : Prop :=
  ∀ s t : State, t = resetOp s →
    t.seq.mode = .idle ∧ t.status = 0 ∧ t.slot = 0 ∧ t.config = 0 ∧ t.msgInLen = 0 ∧ t.msgOutLen = 0
    ∧ t.bitsWritten = 0 ∧ t.car = s.car ∧ t.mIn = s.mIn ∧ t.mOut = s.mOut ∧ t.held = none
    ∧ readReg t .capacity = BitVec.ofNat 32 (s.params.rows * s.params.cols * 3)
    ∧ readReg t .rows = BitVec.ofNat 32 s.params.rows ∧ readReg t .cols = BitVec.ofNat 32 s.params.cols
    ∧ readReg t .msgBufSize = BitVec.ofNat 32 s.params.msgBufBytes

/-- Either reset turn performs the reset, and what the HOST does next stays queued (the model's schedule and queue, log
entries 5, 6 and 12; derived from 70_reset_and_hazards.md R140, R141). A reset between two sequencer steps leaves every
buffer; one inside a step finds the step's write to CAR or MOUT done, and none when the sequencer is idle. -/
def Obligations.ResetTurn : Prop :=
  ∀ (s : State) (ts : List Turn),
    (s.turns = .reset :: ts → ∃ t, step s = .next t
      ∧ t = resetOp { s with turns := ts }
      ∧ t.params = s.params ∧ t.hostQueue = s.hostQueue ∧ t.hostGot = s.hostGot ∧ t.turns = ts ∧ t.held = none
      ∧ t.status = 0 ∧ t.seq.mode = .idle ∧ t.car = s.car ∧ t.mIn = s.mIn ∧ t.mOut = s.mOut) ∧
    (s.turns = .resetInStep :: ts → ∃ t, step s = .next t
      ∧ t = resetOp { s with turns := ts, car := t.car, mOut := t.mOut }
      ∧ t.params = s.params ∧ t.hostQueue = s.hostQueue ∧ t.hostGot = s.hostGot ∧ t.turns = ts ∧ t.held = none
      ∧ t.status = 0 ∧ t.seq.mode = .idle ∧ t.mIn = s.mIn
      ∧ (∀ u, seqStep s = .next u → t.car = u.car ∧ t.mOut = u.mOut)
      ∧ (s.seq.mode = .idle → t.car = s.car ∧ t.mOut = s.mOut))

/-- The state after reset holds the values 70_reset_and_hazards.md R140 gives, and its memories list nothing (log entry
2; sanity). -/
def Obligations.ResetStateHoldsTheSpecValues : Prop :=
  State.reset.seq.mode = .idle ∧ State.reset.status = 0 ∧ State.reset.slot = 0 ∧ State.reset.config = 0
    ∧ State.reset.msgInLen = 0 ∧ State.reset.msgOutLen = 0 ∧ State.reset.bitsWritten = 0 ∧ State.reset.held = none
    ∧ State.reset.car = [] ∧ State.reset.mIn = [] ∧ State.reset.mOut = []

/-- A reset during a command (derived from 70_reset_and_hazards.md R141; log entry 12): the block is left idle with
STATUS 0, so the command does not complete. After `j` slots of an EMBED that succeeds, the slots written hold the new bit
and the others the old, bits 7:1 unchanged; inside the next step, one slot more. Before the decode step of any command
nothing has changed; inside the decode step of a WRBIT, its slot holds the new bit, and inside any other decode step still
nothing has changed. Between or inside the steps of an EXTRACT, MOUT holds a prefix of the bytes it copies. -/
def Obligations.ResetDuringACommand : Prop :=
  (∀ s : State, ∀ u ∈ [s, abandonStep s], (resetOp u).seq.mode = .idle ∧ (resetOp u).status = 0) ∧
  (∀ (s : State) (j : Nat), MachineInv s → s.seq.mode = .dec → decode s.seq.cw = .command .embed → embedSucceeds s = true →
    j ≤ embedLimit s →
    ∃ t, seqRun (j + 1) s = .next t ∧ statusBusy t.status = true ∧
      (∀ a, memRead .car (resetOp t).car a =
        if a < j then withLsb (memRead .car s.car a) (payloadBit (message s) a) else memRead .car s.car a) ∧
      ∀ a, memRead .car (resetOp (abandonStep t)).car a =
        if a < min (j + 1) (embedLimit s) then withLsb (memRead .car s.car a) (payloadBit (message s) a)
        else memRead .car s.car a) ∧
  (∀ s : State, s.seq.mode = .dec →
    (resetOp s).car = s.car ∧ (resetOp s).mOut = s.mOut ∧ (resetOp (abandonStep s)).mOut = s.mOut ∧
    ((∀ b, decode s.seq.cw ≠ .command (.wrbit b)) → (resetOp (abandonStep s)).car = s.car) ∧
    ∀ b, decode s.seq.cw = .command (.wrbit b) →
      (s.slot.toNat < s.params.cap → ∀ a, memRead .car (resetOp (abandonStep s)).car a =
        if a = s.slot.toNat then withLsb (memRead .car s.car a) b else memRead .car s.car a) ∧
      (s.params.cap ≤ s.slot.toNat → (resetOp (abandonStep s)).car = s.car)) ∧
  (∀ (s t : State) (m : Nat), MachineInv s → s.seq.mode = .dec → decode s.seq.cw = .command .extract → seqRun m s = .next t →
    ∀ u ∈ [t, abandonStep t], ∃ j, j ≤ (extractScan s).k ∧ (resetOp u).car = s.car ∧
      ∀ a, memRead .mout (resetOp u).mOut a = if a < j then groupAt s.car a else memRead .mout s.mOut a)

/-- Between commands only a HOST access or reset changes state (derived from 70_reset_and_hazards.md R149; the turns are the
model's, log entry 6). -/
def Obligations.NothingChangesBetweenCommands : Prop :=
  ∀ s : State, s.seq.mode = .idle →
    (∀ ts, s.turns = .seq :: ts → step s = .next { s with turns := ts }) ∧
    (∀ ts, s.turns = .host :: ts → s.held = none → s.hostQueue = [] → step s = .next { s with turns := ts }) ∧
    (s.turns = [] → s.held = none → s.hostQueue = [] → step s = .next s)

/-- The STATUS of a completed command holds until the next issue or reset (derived from 60_exceptions.md R127). -/
def Obligations.StatusHoldsUntilTheNextCommand : Prop :=
  ∀ s t : State, step s = .next t → s.seq.mode = .idle →
    (t.status = s.status ∧ t.seq.mode = .idle) ∨ (t.status = 0x00000001 ∧ t.seq.mode = .dec)
      ∨ (mover s = .reset ∧ t.status = 0)

/-- MSG_OUT_LEN is written only by EXTRACT, BITS_WRITTEN only by EMBED, and both by reset (derived from 10_state.md R27,
R28). -/
def Obligations.ResultRegistersHaveOneWriter : Prop :=
  ∀ s t : State, step s = .next t →
    (t.msgOutLen ≠ s.msgOutLen → mover s = .reset ∨ s.seq.mode = .ext
      ∨ (s.seq.mode = .dec ∧ s.seq.cw = encode .extract)) ∧
    (t.bitsWritten ≠ s.bitsWritten → mover s = .reset ∨ s.seq.mode = .emb
      ∨ (s.seq.mode = .dec ∧ s.seq.cw = encode .embed))

/-- Who writes which buffer and register (derived from 20_memory.md R40, R56): the HOST never changes MOUT, the sequencer
never changes MIN or a HOST-written register, and reset changes no buffer; a reset inside a sequencer step (log entry 12)
finds CAR and MOUT as that step leaves them. -/
def Obligations.AgentsWriteOnlyTheirOwn : Prop :=
  ∀ s t : State, step s = .next t →
    (mover s = .host → t.mOut = s.mOut ∧ t.msgOutLen = s.msgOutLen ∧ t.bitsWritten = s.bitsWritten) ∧
    (mover s = .seq → t.mIn = s.mIn ∧ t.slot = s.slot ∧ t.config = s.config ∧ t.msgInLen = s.msgInLen
      ∧ t.held = s.held ∧ t.hostQueue = s.hostQueue ∧ t.hostGot = s.hostGot) ∧
    (mover s = .reset → t.mIn = s.mIn
      ∧ (s.turns.head? = some .reset ∨ s.seq.mode = .idle → t.car = s.car ∧ t.mOut = s.mOut)
      ∧ ∀ u, s.turns.head? = some .resetInStep → seqStep s = .next u → t.car = u.car ∧ t.mOut = u.mOut)

/-- The bit plane is the only part of the carrier the block writes (derived from 00_scope.md R14, 42_stego.md R97): no
step but a HOST's changes bits 7:1 of a sample. -/
def Obligations.BlockWritesOnlyTheBitPlane : Prop :=
  ∀ s t : State, step s = .next t → mover s ≠ .host →
    ∀ a, (memRead .car t.car a).toNat / 2 = (memRead .car s.car a).toNat / 2

/-- 10_state.md R32: a command's results depend only on what CAR, MIN, SLOT, CONFIG and MSG_IN_LEN hold. -/
def Obligations.CommandsIgnoreEarlierResults : Prop :=
  ∀ (i : Instr) (s t : State), MachineInv s → MachineInv t → s.params = t.params →
    (∀ a, a < s.params.cap → memRead .car s.car a = memRead .car t.car a) →
    (∀ j, j < s.params.msgBufBytes → memRead .min s.mIn j = memRead .min t.mIn j) →
    s.slot = t.slot → s.config = t.config → s.msgInLen = t.msgInLen →
    ∃ u v, exec i s = .next u ∧ exec i t = .next v ∧ u.status = v.status
      ∧ (∀ a, a < s.params.cap → memRead .car u.car a = memRead .car v.car a)
      ∧ (i = .extract → u.msgOutLen = v.msgOutLen
          ∧ ∀ j, j < u.msgOutLen.toNat → memRead .mout u.mOut j = memRead .mout v.mOut j)
      ∧ (i = .embed → u.bitsWritten = v.bitsWritten)

/-- The sequencer's registers at reset are unobservable (derived from 10_state.md R31): between commands, a state that
differs in them alone gives the same step but for them, whichever turn comes next. -/
def Obligations.SequencerRegistersAreUnobservable : Prop :=
  ∀ (s : State) (q : Seq) (w : Word), s.seq.mode = .idle → q.mode = .idle →
    (∀ t, step s = .next t → ∃ u, step (s.setSeq q) = .next u ∧ u = t.setSeq u.seq ∧ u.seq.mode = t.seq.mode) ∧
    ∃ t u, execWord w s = .next t ∧ execWord w (s.setSeq q) = .next u ∧ u = t.setSeq u.seq ∧ u.seq.mode = t.seq.mode

/-- The STATUS of every state that meets the invariant (derived from 10_state.md R20, R21): BUSY and DONE are never both
1, ERR is 1 exactly when ECODE is not 0, reserved bits are 0, and BUSY = 1 exactly while a command executes. -/
def Obligations.StatusFieldsAreConsistent : Prop :=
  ∀ s : State, MachineInv s → (statusBusy s.status && statusDone s.status) = false
    ∧ (statusErr s.status = true ↔ statusEcode s.status ≠ 0)
    ∧ s.status.getLsbD 3 = false ∧ (∀ i, 11 ≤ i → s.status.getLsbD i = false)
    ∧ (statusBusy s.status = true ↔ s.seq.mode ≠ .idle)
    ∧ (s.seq.mode ≠ .idle → s.status = 0x00000001)

/-- The reset state meets the invariant. -/
def Obligations.ResetMeetsTheInvariant : Prop := MachineInv State.reset

/-- Every step keeps the invariant: canonical buffers inside their ranges, a legal STATUS, the sequencer's registers in
range, CONFIG's reserved bits 0, bounded results. -/
def Obligations.StepKeepsTheInvariant : Prop :=
  ∀ s t : State, MachineInv s → step s = .next t → MachineInv t

/-- From a state that meets the invariant the machine never faults, and it refuses only a bus error of the HOST (derived
from 20_memory.md R46, R55, 60_exceptions.md R126). -/
def Obligations.NoFaultFromTheInvariant : Prop :=
  ∀ s : State, MachineInv s → (∃ t, step s = .next t) ∨
    (∃ e a, step s = .refused (.busError e) ∧ mover s = .host ∧ isBusError s.params a
      ∧ (s.held = some a ∨ ∃ rest, s.hostQueue = .access a :: rest))

/-! ## What reads return -/

/-- What a buffer byte reads (derived from 10_state.md R30, 93_implementation_defined.md I3; log entry 2): the byte last
written there, and before any write a free value of its own, of which nothing is said and which a write elsewhere leaves.
In the state after reset every byte of every buffer is such a free value. -/
def Obligations.UnwrittenBytesAreFree : Prop :=
  (∀ (b : Buffer) (m : Memory) (a : Nat),
    (∀ v, memGet m a = some v → memRead b m a = v) ∧ (memGet m a = none → memRead b m a = unwrittenByte b a)) ∧
  (∀ (m : Memory) (a : Nat) (v : Byte), memGet (memWrite m a v) a = some v
    ∧ ∀ c, c ≠ a → memGet (memWrite m a v) c = memGet m c) ∧
  ∀ (b : Buffer) (a : Nat), memRead b (bufOf b State.reset) a = unwrittenByte b a

/-- What a HOST read of a register or a buffer byte returns, and that it changes nothing else (derived from 10_state.md
R17, R19, R20, R26, R27, R28, 20_memory.md R40, R45, R50; the list of values read is the model's, log entry 5). -/
def Obligations.HostReadsReturnTheValueHeld : Prop :=
  ∀ s : State,
    hostAccess (.regRead 32 0x04) s = .next { s with hostGot := .word s.slot :: s.hostGot } ∧
    hostAccess (.regRead 32 0x08) s = .next { s with hostGot := .word s.status :: s.hostGot } ∧
    hostAccess (.regRead 32 0x1C) s = .next { s with hostGot := .word s.msgInLen :: s.hostGot } ∧
    hostAccess (.regRead 32 0x20) s = .next { s with hostGot := .word s.msgOutLen :: s.hostGot } ∧
    hostAccess (.regRead 32 0x24) s = .next { s with hostGot := .word s.bitsWritten :: s.hostGot } ∧
    (∀ a, a < s.params.cap →
      hostAccess (.bufRead .car 8 a) s = .next { s with hostGot := .byte (memRead .car s.car a) :: s.hostGot }) ∧
    (∀ a, a < s.params.msgBufBytes →
      hostAccess (.bufRead .min 8 a) s = .next { s with hostGot := .byte (memRead .min s.mIn a) :: s.hostGot }) ∧
    (∀ a, a < s.params.cap / 8 →
      hostAccess (.bufRead .mout 8 a) s = .next { s with hostGot := .byte (memRead .mout s.mOut a) :: s.hostGot })
end

