-- ==== Sys2Proof/Laws/BitCodec.lean ====
section
/-! SUPPORT. The bit codec: the bits of a byte, the byte of a group, the bit of a payload. -/

namespace Sys2Proof.Machine

/-- Bit `7 - i` of a group's byte is bit `i` of the group (40_bitcodec.md R77). -/
theorem groupByte_getLsbD (g : Nat → Bit) {i : Nat} (hi : i < 8) :
    (groupByte (g 0) (g 1) (g 2) (g 3) (g 4) (g 5) (g 6) (g 7)).getLsbD (7 - i) = g i := by
  have h : ∀ a0 a1 a2 a3 a4 a5 a6 a7 : Bit,
      (groupByte a0 a1 a2 a3 a4 a5 a6 a7).getLsbD 7 = a0 ∧ (groupByte a0 a1 a2 a3 a4 a5 a6 a7).getLsbD 6 = a1
      ∧ (groupByte a0 a1 a2 a3 a4 a5 a6 a7).getLsbD 5 = a2 ∧ (groupByte a0 a1 a2 a3 a4 a5 a6 a7).getLsbD 4 = a3
      ∧ (groupByte a0 a1 a2 a3 a4 a5 a6 a7).getLsbD 3 = a4 ∧ (groupByte a0 a1 a2 a3 a4 a5 a6 a7).getLsbD 2 = a5
      ∧ (groupByte a0 a1 a2 a3 a4 a5 a6 a7).getLsbD 1 = a6 ∧ (groupByte a0 a1 a2 a3 a4 a5 a6 a7).getLsbD 0 = a7 := by
    decide +kernel
  have := h (g 0) (g 1) (g 2) (g 3) (g 4) (g 5) (g 6) (g 7)
  interval_cases i
  exacts [this.1, this.2.1, this.2.2.1, this.2.2.2.1, this.2.2.2.2.1, this.2.2.2.2.2.1, this.2.2.2.2.2.2.1, this.2.2.2.2.2.2.2]

/-- Two bytes are equal when they have the same eight bits. -/
theorem byte_ext {v w : Byte} (h : ∀ i, i < 8 → v.getLsbD (7 - i) = w.getLsbD (7 - i)) : v = w := by
  apply BitVec.eq_of_getLsbD_eq
  intro i hi
  have := h (7 - i) (by omega)
  rwa [show 7 - (7 - i) = i by omega] at this

/-- The byte of a group is the byte whose bits the group is. -/
theorem groupByte_eq {g : Nat → Bit} {v : Byte} (h : ∀ i, i < 8 → g i = v.getLsbD (7 - i)) :
    groupByte (g 0) (g 1) (g 2) (g 3) (g 4) (g 5) (g 6) (g 7) = v :=
  byte_ext fun i hi => by rw [groupByte_getLsbD g hi, h i hi]

/-- The bits of a byte by index (40_bitcodec.md R75). -/
theorem byteBits_getElem? (v : Byte) {i : Nat} (hi : i < 8) : (byteBits v)[i]? = some (v.getLsbD (7 - i)) := by
  interval_cases i <;> rfl

@[simp] theorem byteBits_length (v : Byte) : (byteBits v).length = 8 := rfl

@[simp] theorem toBits_nil : toBits [] = [] := rfl
@[simp] theorem toBits_cons (v : Byte) (vs : List Byte) : toBits (v :: vs) = byteBits v ++ toBits vs := rfl

@[simp] theorem term_length : term.length = 16 := rfl

/-- `P(B, s)` on a message bit (40_bitcodec.md R80). -/
theorem payloadBit_message {m : List Byte} {s : Nat} (h : s < 8 * m.length) :
    payloadBit m s = (m.getD (s / 8) 0).getLsbD (7 - s % 8) := by simp [payloadBit, h]

/-- `P(B, s)` on a terminator bit (40_bitcodec.md R79, R80): 1 but for the last. -/
theorem payloadBit_term {m : List Byte} {j : Nat} (h : j < 16) :
    payloadBit m (8 * m.length + j) = decide (j ≠ 15) := by
  have h1 : ¬ 8 * m.length + j < 8 * m.length := by omega
  have h2 : 8 * m.length + j - 8 * m.length = j := by omega
  simp only [payloadBit, h1, if_false, h2]
  interval_cases j <;> rfl

/-- A group stops extraction exactly when its byte is 0xFF (40_bitcodec.md R81). -/
theorem isStop_iff (v : Byte) : isStop v = true ↔ v = 0xFF := by simp [isStop]

end Sys2Proof.Machine
end

