-- ==== Sys2Proof/Laws/Flags.lean ====
section
/-! SUPPORT. The fields of the STATUS a completion writes (60_exceptions.md R121), and its value as a word. -/

namespace Sys2Proof.Machine

@[simp] theorem statusBusy_complete (e : ErrorCode) (r t f : Bit) : statusBusy (completeStatus e r t f) = false := by
  cases e <;> cases r <;> cases t <;> cases f <;> rfl

@[simp] theorem statusDone_complete (e : ErrorCode) (r t f : Bit) : statusDone (completeStatus e r t f) = true := by
  cases e <;> cases r <;> cases t <;> cases f <;> rfl

@[simp] theorem statusErr_complete (e : ErrorCode) (r t f : Bit) :
    statusErr (completeStatus e r t f) = decide (errorNumber e ≠ 0) := by
  cases e <;> cases r <;> cases t <;> cases f <;> rfl

@[simp] theorem statusEcode_complete (e : ErrorCode) (r t f : Bit) :
    statusEcode (completeStatus e r t f) = BitVec.ofNat 4 (errorNumber e) := by
  cases e <;> cases r <;> cases t <;> cases f <;> rfl

@[simp] theorem statusRbit_complete (e : ErrorCode) (r t f : Bit) : statusRbit (completeStatus e r t f) = r := by
  cases e <;> cases r <;> cases t <;> cases f <;> rfl

@[simp] theorem statusTrunc_complete (e : ErrorCode) (r t f : Bit) : statusTrunc (completeStatus e r t f) = t := by
  cases e <;> cases r <;> cases t <;> cases f <;> rfl

@[simp] theorem statusFound_complete (e : ErrorCode) (r t f : Bit) : statusFound (completeStatus e r t f) = f := by
  cases e <;> cases r <;> cases t <;> cases f <;> rfl

/-- A completion's STATUS has no bit above 10: it is below 2^11. -/
theorem completeStatus_lt (e : ErrorCode) (r t f : Bit) : (completeStatus e r t f).toNat < 2 ^ 11 := by
  cases e <;> cases r <;> cases t <;> cases f <;> decide

/-- The reserved bit 3 reads 0 (10_state.md R20). -/
theorem completeStatus_bit3 (e : ErrorCode) (r t f : Bit) : (completeStatus e r t f).getLsbD 3 = false := by
  cases e <;> cases r <;> cases t <;> cases f <;> rfl

/-- The reserved bits 31:11 read 0 (10_state.md R20). -/
theorem completeStatus_high (e : ErrorCode) (r t f : Bit) {i : Nat} (hi : 11 ≤ i) :
    (completeStatus e r t f).getLsbD i = false := by
  refine Nat.testBit_lt_two_pow (lt_of_lt_of_le (completeStatus_lt e r t f) ?_)
  exact Nat.pow_le_pow_right (by decide) hi

@[simp] theorem statusBusy_busyStatus : statusBusy busyStatus = true := rfl

/-- An executing command's STATUS is no completion's. -/
theorem busyStatus_ne_complete (e : ErrorCode) (r t f : Bit) : busyStatus ≠ completeStatus e r t f := by
  intro h
  have := statusBusy_complete e r t f
  rw [← h] at this
  exact absurd this (by decide)

end Sys2Proof.Machine
end

