-- ==== Sys2Proof/Laws/Memory.lean ====
section
/-! SUPPORT. The laws of one buffer: a write is read back, changes no other byte, keeps the canonical form and the
address range; canonical buffers with the same written bytes are equal. -/

namespace Sys2Proof.Machine

/-- No address below `lo` is listed. -/
theorem memGet_below {m : Memory} {lo a : Nat} (h : memWfFrom lo m = true) (ha : a < lo) : memGet m a = none := by
  induction m generalizing lo with
  | nil => rfl
  | cons c m ih =>
    obtain ⟨b, w⟩ := c
    simp only [memWfFrom, Bool.and_eq_true, decide_eq_true_eq] at h
    have hne : a ≠ b := by omega
    simp only [memGet, hne, if_false]
    exact ih h.2 (by omega)

/-- A canonical list from `lo` on is one from any smaller bound on. -/
theorem memWfFrom_mono {m : Memory} {lo lo' : Nat} (h : memWfFrom lo m = true) (hl : lo' ≤ lo) :
    memWfFrom lo' m = true := by
  cases m with
  | nil => rfl
  | cons c m =>
    obtain ⟨b, w⟩ := c
    simp only [memWfFrom, Bool.and_eq_true, decide_eq_true_eq] at h ⊢
    exact ⟨by omega, h.2⟩

/-- The written byte at every address after a write; no canonical form is needed. -/
theorem memGet_memWrite (m : Memory) (a : Nat) (v : Byte) (d : Nat) :
    memGet (memWrite m a v) d = if d = a then some v else memGet m d := by
  induction m with
  | nil => simp [memWrite, memGet]
  | cons c m ih =>
    obtain ⟨b, w⟩ := c
    by_cases h1 : a < b
    · simp only [memWrite, h1, if_true, memGet]
    · by_cases h2 : a = b
      · subst h2
        by_cases hd : d = a <;> simp [memWrite, memGet, hd]
      · by_cases hd : d = b
        · have : d ≠ a := fun e => h2 (e.symm.trans hd)
          simp [memWrite, memGet, h1, h2, hd, Ne.symm h2]
        · simp only [memWrite, h1, h2, memGet, hd, if_false, ih]

/-- Read after write: the byte written at its address, every other byte as before. -/
theorem memRead_memWrite {b : Buffer} (m : Memory) (a : Nat) (v : Byte) (d : Nat) :
    memRead b (memWrite m a v) d = if d = a then v else memRead b m d := by
  rw [memRead, memGet_memWrite]
  split_ifs <;> rfl

theorem memWfFrom_memWrite {m : Memory} {lo a : Nat} (h : memWfFrom lo m = true) (ha : lo ≤ a) (v : Byte) :
    memWfFrom lo (memWrite m a v) = true := by
  induction m generalizing lo with
  | nil => simp [memWrite, memWfFrom, ha]
  | cons c m ih =>
    obtain ⟨b, w⟩ := c
    simp only [memWfFrom, Bool.and_eq_true, decide_eq_true_eq] at h
    simp only [memWrite]
    split_ifs with h1 h2 <;> simp only [memWfFrom, Bool.and_eq_true, decide_eq_true_eq]
    · exact ⟨ha, by omega, h.2⟩
    · exact ⟨ha, by subst h2; exact h.2⟩
    · exact ⟨h.1, ih h.2 (by omega)⟩

/-- A write keeps the canonical form. -/
theorem wf_memWrite {m : Memory} (h : m.wf = true) (a : Nat) (v : Byte) : (memWrite m a v).wf = true :=
  memWfFrom_memWrite h (Nat.zero_le a) v

/-- The empty buffer is canonical. -/
theorem wf_nil : Memory.wf [] = true := rfl

/-- A write inside a buffer keeps every listed address inside it. -/
theorem memBelow_memWrite {m : Memory} {size a : Nat} (h : memBelow size m = true) (ha : a < size) (v : Byte) :
    memBelow size (memWrite m a v) = true := by
  induction m with
  | nil => simp [memWrite, memBelow, ha]
  | cons c m ih =>
    obtain ⟨b, w⟩ := c
    simp only [memBelow, List.all_cons, Bool.and_eq_true, decide_eq_true_eq] at h ih ⊢
    simp only [memWrite]
    split_ifs
    · simp [h, ha]
    · simp [h, ha]
    · simp only [List.all_cons, Bool.and_eq_true, decide_eq_true_eq]; exact ⟨h.1, ih h.2⟩

/-- Canonical buffers with the same written bytes are the same list. -/
theorem memWfFrom_ext {m n : Memory} {lo : Nat} (hm : memWfFrom lo m = true) (hn : memWfFrom lo n = true)
    (h : ∀ a, memGet m a = memGet n a) : m = n := by
  induction m generalizing n lo with
  | nil =>
    cases n with
    | nil => rfl
    | cons c n =>
      have := h c.1
      simp [memGet] at this
  | cons c m ih =>
    obtain ⟨b, w⟩ := c
    cases n with
    | nil =>
      have := h b
      simp [memGet] at this
    | cons c' n =>
      obtain ⟨b', w'⟩ := c'
      simp only [memWfFrom, Bool.and_eq_true, decide_eq_true_eq] at hm hn
      have first : ∀ {x y : Nat} {u u' : Byte} {p q : Memory}, memWfFrom (y + 1) q = true →
          memGet ((x, u) :: p) x = memGet ((y, u') :: q) x → ¬ x < y := by
        intro x y u u' p q hq hx hlt
        have hne : x ≠ y := by omega
        simp only [memGet, if_true, hne, if_false, memGet_below hq (show x < y + 1 by omega)] at hx
        cases hx
      have hbb : b = b' := by
        have h1 := first (p := m) hn.2 (h b)
        have h2 := first (p := n) hm.2 (h b').symm
        omega
      subst hbb
      have hw : w = w' := by have := h b; simpa [memGet] using this
      subst hw
      congr 1
      refine ih hm.2 hn.2 fun a => ?_
      by_cases hab : a < b + 1
      · rw [memGet_below hm.2 hab, memGet_below hn.2 hab]
      · have := h a
        have hne : a ≠ b := by omega
        simpa [memGet, hne] using this

theorem wf_ext {m n : Memory} (hm : m.wf = true) (hn : n.wf = true) (h : ∀ a, memGet m a = memGet n a) : m = n :=
  memWfFrom_ext hm hn h

/-- Writing the byte that stands written at an address changes nothing. -/
theorem memWrite_self {m : Memory} (h : m.wf = true) {a : Nat} {v : Byte} (hv : memGet m a = some v) :
    memWrite m a v = m :=
  wf_ext (wf_memWrite h a v) h fun d => by
    rw [memGet_memWrite]
    split_ifs with e
    · rw [e, hv]
    · rfl

/-- Of two writes at one address the second stands. -/
theorem memWrite_memWrite {m : Memory} (h : m.wf = true) (a : Nat) (v w : Byte) :
    memWrite (memWrite m a v) a w = memWrite m a w :=
  wf_ext (wf_memWrite (wf_memWrite h a v) a w) (wf_memWrite h a w) fun d => by
    rw [memGet_memWrite, memGet_memWrite, memGet_memWrite]
    split_ifs <;> rfl

end Sys2Proof.Machine
end

