-- ==== Sys2Proof/Laws/State.lean ====
section
/-! SUPPORT. One lemma per field per update of `State`: later proofs never unfold a record update. -/

namespace Sys2Proof.Machine

@[simp] theorem setSlot_params (s : State) (v : Word) : (s.setSlot v).params = s.params := rfl
@[simp] theorem setSlot_slot (s : State) (v : Word) : (s.setSlot v).slot = v := rfl
@[simp] theorem setSlot_status (s : State) (v : Word) : (s.setSlot v).status = s.status := rfl
@[simp] theorem setSlot_config (s : State) (v : Word) : (s.setSlot v).config = s.config := rfl
@[simp] theorem setSlot_msgInLen (s : State) (v : Word) : (s.setSlot v).msgInLen = s.msgInLen := rfl
@[simp] theorem setSlot_msgOutLen (s : State) (v : Word) : (s.setSlot v).msgOutLen = s.msgOutLen := rfl
@[simp] theorem setSlot_bitsWritten (s : State) (v : Word) : (s.setSlot v).bitsWritten = s.bitsWritten := rfl
@[simp] theorem setSlot_car (s : State) (v : Word) : (s.setSlot v).car = s.car := rfl
@[simp] theorem setSlot_mIn (s : State) (v : Word) : (s.setSlot v).mIn = s.mIn := rfl
@[simp] theorem setSlot_mOut (s : State) (v : Word) : (s.setSlot v).mOut = s.mOut := rfl
@[simp] theorem setSlot_seq (s : State) (v : Word) : (s.setSlot v).seq = s.seq := rfl
@[simp] theorem setSlot_held (s : State) (v : Word) : (s.setSlot v).held = s.held := rfl
@[simp] theorem setSlot_hostQueue (s : State) (v : Word) : (s.setSlot v).hostQueue = s.hostQueue := rfl
@[simp] theorem setSlot_hostGot (s : State) (v : Word) : (s.setSlot v).hostGot = s.hostGot := rfl
@[simp] theorem setSlot_turns (s : State) (v : Word) : (s.setSlot v).turns = s.turns := rfl
@[simp] theorem setSlot_draws (s : State) (v : Word) : (s.setSlot v).draws = s.draws := rfl

@[simp] theorem setStatus_params (s : State) (v : Word) : (s.setStatus v).params = s.params := rfl
@[simp] theorem setStatus_slot (s : State) (v : Word) : (s.setStatus v).slot = s.slot := rfl
@[simp] theorem setStatus_status (s : State) (v : Word) : (s.setStatus v).status = v := rfl
@[simp] theorem setStatus_config (s : State) (v : Word) : (s.setStatus v).config = s.config := rfl
@[simp] theorem setStatus_msgInLen (s : State) (v : Word) : (s.setStatus v).msgInLen = s.msgInLen := rfl
@[simp] theorem setStatus_msgOutLen (s : State) (v : Word) : (s.setStatus v).msgOutLen = s.msgOutLen := rfl
@[simp] theorem setStatus_bitsWritten (s : State) (v : Word) : (s.setStatus v).bitsWritten = s.bitsWritten := rfl
@[simp] theorem setStatus_car (s : State) (v : Word) : (s.setStatus v).car = s.car := rfl
@[simp] theorem setStatus_mIn (s : State) (v : Word) : (s.setStatus v).mIn = s.mIn := rfl
@[simp] theorem setStatus_mOut (s : State) (v : Word) : (s.setStatus v).mOut = s.mOut := rfl
@[simp] theorem setStatus_seq (s : State) (v : Word) : (s.setStatus v).seq = s.seq := rfl
@[simp] theorem setStatus_held (s : State) (v : Word) : (s.setStatus v).held = s.held := rfl
@[simp] theorem setStatus_hostQueue (s : State) (v : Word) : (s.setStatus v).hostQueue = s.hostQueue := rfl
@[simp] theorem setStatus_hostGot (s : State) (v : Word) : (s.setStatus v).hostGot = s.hostGot := rfl
@[simp] theorem setStatus_turns (s : State) (v : Word) : (s.setStatus v).turns = s.turns := rfl
@[simp] theorem setStatus_draws (s : State) (v : Word) : (s.setStatus v).draws = s.draws := rfl

@[simp] theorem setConfig_params (s : State) (v : Word) : (s.setConfig v).params = s.params := rfl
@[simp] theorem setConfig_slot (s : State) (v : Word) : (s.setConfig v).slot = s.slot := rfl
@[simp] theorem setConfig_status (s : State) (v : Word) : (s.setConfig v).status = s.status := rfl
@[simp] theorem setConfig_config (s : State) (v : Word) : (s.setConfig v).config = v := rfl
@[simp] theorem setConfig_msgInLen (s : State) (v : Word) : (s.setConfig v).msgInLen = s.msgInLen := rfl
@[simp] theorem setConfig_msgOutLen (s : State) (v : Word) : (s.setConfig v).msgOutLen = s.msgOutLen := rfl
@[simp] theorem setConfig_bitsWritten (s : State) (v : Word) : (s.setConfig v).bitsWritten = s.bitsWritten := rfl
@[simp] theorem setConfig_car (s : State) (v : Word) : (s.setConfig v).car = s.car := rfl
@[simp] theorem setConfig_mIn (s : State) (v : Word) : (s.setConfig v).mIn = s.mIn := rfl
@[simp] theorem setConfig_mOut (s : State) (v : Word) : (s.setConfig v).mOut = s.mOut := rfl
@[simp] theorem setConfig_seq (s : State) (v : Word) : (s.setConfig v).seq = s.seq := rfl
@[simp] theorem setConfig_held (s : State) (v : Word) : (s.setConfig v).held = s.held := rfl
@[simp] theorem setConfig_hostQueue (s : State) (v : Word) : (s.setConfig v).hostQueue = s.hostQueue := rfl
@[simp] theorem setConfig_hostGot (s : State) (v : Word) : (s.setConfig v).hostGot = s.hostGot := rfl
@[simp] theorem setConfig_turns (s : State) (v : Word) : (s.setConfig v).turns = s.turns := rfl
@[simp] theorem setConfig_draws (s : State) (v : Word) : (s.setConfig v).draws = s.draws := rfl

@[simp] theorem setMsgInLen_params (s : State) (v : Word) : (s.setMsgInLen v).params = s.params := rfl
@[simp] theorem setMsgInLen_slot (s : State) (v : Word) : (s.setMsgInLen v).slot = s.slot := rfl
@[simp] theorem setMsgInLen_status (s : State) (v : Word) : (s.setMsgInLen v).status = s.status := rfl
@[simp] theorem setMsgInLen_config (s : State) (v : Word) : (s.setMsgInLen v).config = s.config := rfl
@[simp] theorem setMsgInLen_msgInLen (s : State) (v : Word) : (s.setMsgInLen v).msgInLen = v := rfl
@[simp] theorem setMsgInLen_msgOutLen (s : State) (v : Word) : (s.setMsgInLen v).msgOutLen = s.msgOutLen := rfl
@[simp] theorem setMsgInLen_bitsWritten (s : State) (v : Word) : (s.setMsgInLen v).bitsWritten = s.bitsWritten := rfl
@[simp] theorem setMsgInLen_car (s : State) (v : Word) : (s.setMsgInLen v).car = s.car := rfl
@[simp] theorem setMsgInLen_mIn (s : State) (v : Word) : (s.setMsgInLen v).mIn = s.mIn := rfl
@[simp] theorem setMsgInLen_mOut (s : State) (v : Word) : (s.setMsgInLen v).mOut = s.mOut := rfl
@[simp] theorem setMsgInLen_seq (s : State) (v : Word) : (s.setMsgInLen v).seq = s.seq := rfl
@[simp] theorem setMsgInLen_held (s : State) (v : Word) : (s.setMsgInLen v).held = s.held := rfl
@[simp] theorem setMsgInLen_hostQueue (s : State) (v : Word) : (s.setMsgInLen v).hostQueue = s.hostQueue := rfl
@[simp] theorem setMsgInLen_hostGot (s : State) (v : Word) : (s.setMsgInLen v).hostGot = s.hostGot := rfl
@[simp] theorem setMsgInLen_turns (s : State) (v : Word) : (s.setMsgInLen v).turns = s.turns := rfl
@[simp] theorem setMsgInLen_draws (s : State) (v : Word) : (s.setMsgInLen v).draws = s.draws := rfl

@[simp] theorem setMsgOutLen_params (s : State) (v : Word) : (s.setMsgOutLen v).params = s.params := rfl
@[simp] theorem setMsgOutLen_slot (s : State) (v : Word) : (s.setMsgOutLen v).slot = s.slot := rfl
@[simp] theorem setMsgOutLen_status (s : State) (v : Word) : (s.setMsgOutLen v).status = s.status := rfl
@[simp] theorem setMsgOutLen_config (s : State) (v : Word) : (s.setMsgOutLen v).config = s.config := rfl
@[simp] theorem setMsgOutLen_msgInLen (s : State) (v : Word) : (s.setMsgOutLen v).msgInLen = s.msgInLen := rfl
@[simp] theorem setMsgOutLen_msgOutLen (s : State) (v : Word) : (s.setMsgOutLen v).msgOutLen = v := rfl
@[simp] theorem setMsgOutLen_bitsWritten (s : State) (v : Word) : (s.setMsgOutLen v).bitsWritten = s.bitsWritten := rfl
@[simp] theorem setMsgOutLen_car (s : State) (v : Word) : (s.setMsgOutLen v).car = s.car := rfl
@[simp] theorem setMsgOutLen_mIn (s : State) (v : Word) : (s.setMsgOutLen v).mIn = s.mIn := rfl
@[simp] theorem setMsgOutLen_mOut (s : State) (v : Word) : (s.setMsgOutLen v).mOut = s.mOut := rfl
@[simp] theorem setMsgOutLen_seq (s : State) (v : Word) : (s.setMsgOutLen v).seq = s.seq := rfl
@[simp] theorem setMsgOutLen_held (s : State) (v : Word) : (s.setMsgOutLen v).held = s.held := rfl
@[simp] theorem setMsgOutLen_hostQueue (s : State) (v : Word) : (s.setMsgOutLen v).hostQueue = s.hostQueue := rfl
@[simp] theorem setMsgOutLen_hostGot (s : State) (v : Word) : (s.setMsgOutLen v).hostGot = s.hostGot := rfl
@[simp] theorem setMsgOutLen_turns (s : State) (v : Word) : (s.setMsgOutLen v).turns = s.turns := rfl
@[simp] theorem setMsgOutLen_draws (s : State) (v : Word) : (s.setMsgOutLen v).draws = s.draws := rfl

@[simp] theorem setBitsWritten_params (s : State) (v : Word) : (s.setBitsWritten v).params = s.params := rfl
@[simp] theorem setBitsWritten_slot (s : State) (v : Word) : (s.setBitsWritten v).slot = s.slot := rfl
@[simp] theorem setBitsWritten_status (s : State) (v : Word) : (s.setBitsWritten v).status = s.status := rfl
@[simp] theorem setBitsWritten_config (s : State) (v : Word) : (s.setBitsWritten v).config = s.config := rfl
@[simp] theorem setBitsWritten_msgInLen (s : State) (v : Word) : (s.setBitsWritten v).msgInLen = s.msgInLen := rfl
@[simp] theorem setBitsWritten_msgOutLen (s : State) (v : Word) : (s.setBitsWritten v).msgOutLen = s.msgOutLen := rfl
@[simp] theorem setBitsWritten_bitsWritten (s : State) (v : Word) : (s.setBitsWritten v).bitsWritten = v := rfl
@[simp] theorem setBitsWritten_car (s : State) (v : Word) : (s.setBitsWritten v).car = s.car := rfl
@[simp] theorem setBitsWritten_mIn (s : State) (v : Word) : (s.setBitsWritten v).mIn = s.mIn := rfl
@[simp] theorem setBitsWritten_mOut (s : State) (v : Word) : (s.setBitsWritten v).mOut = s.mOut := rfl
@[simp] theorem setBitsWritten_seq (s : State) (v : Word) : (s.setBitsWritten v).seq = s.seq := rfl
@[simp] theorem setBitsWritten_held (s : State) (v : Word) : (s.setBitsWritten v).held = s.held := rfl
@[simp] theorem setBitsWritten_hostQueue (s : State) (v : Word) : (s.setBitsWritten v).hostQueue = s.hostQueue := rfl
@[simp] theorem setBitsWritten_hostGot (s : State) (v : Word) : (s.setBitsWritten v).hostGot = s.hostGot := rfl
@[simp] theorem setBitsWritten_turns (s : State) (v : Word) : (s.setBitsWritten v).turns = s.turns := rfl
@[simp] theorem setBitsWritten_draws (s : State) (v : Word) : (s.setBitsWritten v).draws = s.draws := rfl

@[simp] theorem setCar_params (s : State) (v : Memory) : (s.setCar v).params = s.params := rfl
@[simp] theorem setCar_slot (s : State) (v : Memory) : (s.setCar v).slot = s.slot := rfl
@[simp] theorem setCar_status (s : State) (v : Memory) : (s.setCar v).status = s.status := rfl
@[simp] theorem setCar_config (s : State) (v : Memory) : (s.setCar v).config = s.config := rfl
@[simp] theorem setCar_msgInLen (s : State) (v : Memory) : (s.setCar v).msgInLen = s.msgInLen := rfl
@[simp] theorem setCar_msgOutLen (s : State) (v : Memory) : (s.setCar v).msgOutLen = s.msgOutLen := rfl
@[simp] theorem setCar_bitsWritten (s : State) (v : Memory) : (s.setCar v).bitsWritten = s.bitsWritten := rfl
@[simp] theorem setCar_car (s : State) (v : Memory) : (s.setCar v).car = v := rfl
@[simp] theorem setCar_mIn (s : State) (v : Memory) : (s.setCar v).mIn = s.mIn := rfl
@[simp] theorem setCar_mOut (s : State) (v : Memory) : (s.setCar v).mOut = s.mOut := rfl
@[simp] theorem setCar_seq (s : State) (v : Memory) : (s.setCar v).seq = s.seq := rfl
@[simp] theorem setCar_held (s : State) (v : Memory) : (s.setCar v).held = s.held := rfl
@[simp] theorem setCar_hostQueue (s : State) (v : Memory) : (s.setCar v).hostQueue = s.hostQueue := rfl
@[simp] theorem setCar_hostGot (s : State) (v : Memory) : (s.setCar v).hostGot = s.hostGot := rfl
@[simp] theorem setCar_turns (s : State) (v : Memory) : (s.setCar v).turns = s.turns := rfl
@[simp] theorem setCar_draws (s : State) (v : Memory) : (s.setCar v).draws = s.draws := rfl

@[simp] theorem setMIn_params (s : State) (v : Memory) : (s.setMIn v).params = s.params := rfl
@[simp] theorem setMIn_slot (s : State) (v : Memory) : (s.setMIn v).slot = s.slot := rfl
@[simp] theorem setMIn_status (s : State) (v : Memory) : (s.setMIn v).status = s.status := rfl
@[simp] theorem setMIn_config (s : State) (v : Memory) : (s.setMIn v).config = s.config := rfl
@[simp] theorem setMIn_msgInLen (s : State) (v : Memory) : (s.setMIn v).msgInLen = s.msgInLen := rfl
@[simp] theorem setMIn_msgOutLen (s : State) (v : Memory) : (s.setMIn v).msgOutLen = s.msgOutLen := rfl
@[simp] theorem setMIn_bitsWritten (s : State) (v : Memory) : (s.setMIn v).bitsWritten = s.bitsWritten := rfl
@[simp] theorem setMIn_car (s : State) (v : Memory) : (s.setMIn v).car = s.car := rfl
@[simp] theorem setMIn_mIn (s : State) (v : Memory) : (s.setMIn v).mIn = v := rfl
@[simp] theorem setMIn_mOut (s : State) (v : Memory) : (s.setMIn v).mOut = s.mOut := rfl
@[simp] theorem setMIn_seq (s : State) (v : Memory) : (s.setMIn v).seq = s.seq := rfl
@[simp] theorem setMIn_held (s : State) (v : Memory) : (s.setMIn v).held = s.held := rfl
@[simp] theorem setMIn_hostQueue (s : State) (v : Memory) : (s.setMIn v).hostQueue = s.hostQueue := rfl
@[simp] theorem setMIn_hostGot (s : State) (v : Memory) : (s.setMIn v).hostGot = s.hostGot := rfl
@[simp] theorem setMIn_turns (s : State) (v : Memory) : (s.setMIn v).turns = s.turns := rfl
@[simp] theorem setMIn_draws (s : State) (v : Memory) : (s.setMIn v).draws = s.draws := rfl

@[simp] theorem setMOut_params (s : State) (v : Memory) : (s.setMOut v).params = s.params := rfl
@[simp] theorem setMOut_slot (s : State) (v : Memory) : (s.setMOut v).slot = s.slot := rfl
@[simp] theorem setMOut_status (s : State) (v : Memory) : (s.setMOut v).status = s.status := rfl
@[simp] theorem setMOut_config (s : State) (v : Memory) : (s.setMOut v).config = s.config := rfl
@[simp] theorem setMOut_msgInLen (s : State) (v : Memory) : (s.setMOut v).msgInLen = s.msgInLen := rfl
@[simp] theorem setMOut_msgOutLen (s : State) (v : Memory) : (s.setMOut v).msgOutLen = s.msgOutLen := rfl
@[simp] theorem setMOut_bitsWritten (s : State) (v : Memory) : (s.setMOut v).bitsWritten = s.bitsWritten := rfl
@[simp] theorem setMOut_car (s : State) (v : Memory) : (s.setMOut v).car = s.car := rfl
@[simp] theorem setMOut_mIn (s : State) (v : Memory) : (s.setMOut v).mIn = s.mIn := rfl
@[simp] theorem setMOut_mOut (s : State) (v : Memory) : (s.setMOut v).mOut = v := rfl
@[simp] theorem setMOut_seq (s : State) (v : Memory) : (s.setMOut v).seq = s.seq := rfl
@[simp] theorem setMOut_held (s : State) (v : Memory) : (s.setMOut v).held = s.held := rfl
@[simp] theorem setMOut_hostQueue (s : State) (v : Memory) : (s.setMOut v).hostQueue = s.hostQueue := rfl
@[simp] theorem setMOut_hostGot (s : State) (v : Memory) : (s.setMOut v).hostGot = s.hostGot := rfl
@[simp] theorem setMOut_turns (s : State) (v : Memory) : (s.setMOut v).turns = s.turns := rfl
@[simp] theorem setMOut_draws (s : State) (v : Memory) : (s.setMOut v).draws = s.draws := rfl

@[simp] theorem setSeq_params (s : State) (v : Seq) : (s.setSeq v).params = s.params := rfl
@[simp] theorem setSeq_slot (s : State) (v : Seq) : (s.setSeq v).slot = s.slot := rfl
@[simp] theorem setSeq_status (s : State) (v : Seq) : (s.setSeq v).status = s.status := rfl
@[simp] theorem setSeq_config (s : State) (v : Seq) : (s.setSeq v).config = s.config := rfl
@[simp] theorem setSeq_msgInLen (s : State) (v : Seq) : (s.setSeq v).msgInLen = s.msgInLen := rfl
@[simp] theorem setSeq_msgOutLen (s : State) (v : Seq) : (s.setSeq v).msgOutLen = s.msgOutLen := rfl
@[simp] theorem setSeq_bitsWritten (s : State) (v : Seq) : (s.setSeq v).bitsWritten = s.bitsWritten := rfl
@[simp] theorem setSeq_car (s : State) (v : Seq) : (s.setSeq v).car = s.car := rfl
@[simp] theorem setSeq_mIn (s : State) (v : Seq) : (s.setSeq v).mIn = s.mIn := rfl
@[simp] theorem setSeq_mOut (s : State) (v : Seq) : (s.setSeq v).mOut = s.mOut := rfl
@[simp] theorem setSeq_seq (s : State) (v : Seq) : (s.setSeq v).seq = v := rfl
@[simp] theorem setSeq_held (s : State) (v : Seq) : (s.setSeq v).held = s.held := rfl
@[simp] theorem setSeq_hostQueue (s : State) (v : Seq) : (s.setSeq v).hostQueue = s.hostQueue := rfl
@[simp] theorem setSeq_hostGot (s : State) (v : Seq) : (s.setSeq v).hostGot = s.hostGot := rfl
@[simp] theorem setSeq_turns (s : State) (v : Seq) : (s.setSeq v).turns = s.turns := rfl
@[simp] theorem setSeq_draws (s : State) (v : Seq) : (s.setSeq v).draws = s.draws := rfl

@[simp] theorem setHeld_params (s : State) (v : Option HostAccess) : (s.setHeld v).params = s.params := rfl
@[simp] theorem setHeld_slot (s : State) (v : Option HostAccess) : (s.setHeld v).slot = s.slot := rfl
@[simp] theorem setHeld_status (s : State) (v : Option HostAccess) : (s.setHeld v).status = s.status := rfl
@[simp] theorem setHeld_config (s : State) (v : Option HostAccess) : (s.setHeld v).config = s.config := rfl
@[simp] theorem setHeld_msgInLen (s : State) (v : Option HostAccess) : (s.setHeld v).msgInLen = s.msgInLen := rfl
@[simp] theorem setHeld_msgOutLen (s : State) (v : Option HostAccess) : (s.setHeld v).msgOutLen = s.msgOutLen := rfl
@[simp] theorem setHeld_bitsWritten (s : State) (v : Option HostAccess) : (s.setHeld v).bitsWritten = s.bitsWritten := rfl
@[simp] theorem setHeld_car (s : State) (v : Option HostAccess) : (s.setHeld v).car = s.car := rfl
@[simp] theorem setHeld_mIn (s : State) (v : Option HostAccess) : (s.setHeld v).mIn = s.mIn := rfl
@[simp] theorem setHeld_mOut (s : State) (v : Option HostAccess) : (s.setHeld v).mOut = s.mOut := rfl
@[simp] theorem setHeld_seq (s : State) (v : Option HostAccess) : (s.setHeld v).seq = s.seq := rfl
@[simp] theorem setHeld_held (s : State) (v : Option HostAccess) : (s.setHeld v).held = v := rfl
@[simp] theorem setHeld_hostQueue (s : State) (v : Option HostAccess) : (s.setHeld v).hostQueue = s.hostQueue := rfl
@[simp] theorem setHeld_hostGot (s : State) (v : Option HostAccess) : (s.setHeld v).hostGot = s.hostGot := rfl
@[simp] theorem setHeld_turns (s : State) (v : Option HostAccess) : (s.setHeld v).turns = s.turns := rfl
@[simp] theorem setHeld_draws (s : State) (v : Option HostAccess) : (s.setHeld v).draws = s.draws := rfl

@[simp] theorem setHostQueue_params (s : State) (v : List HostStmt) : (s.setHostQueue v).params = s.params := rfl
@[simp] theorem setHostQueue_slot (s : State) (v : List HostStmt) : (s.setHostQueue v).slot = s.slot := rfl
@[simp] theorem setHostQueue_status (s : State) (v : List HostStmt) : (s.setHostQueue v).status = s.status := rfl
@[simp] theorem setHostQueue_config (s : State) (v : List HostStmt) : (s.setHostQueue v).config = s.config := rfl
@[simp] theorem setHostQueue_msgInLen (s : State) (v : List HostStmt) : (s.setHostQueue v).msgInLen = s.msgInLen := rfl
@[simp] theorem setHostQueue_msgOutLen (s : State) (v : List HostStmt) : (s.setHostQueue v).msgOutLen = s.msgOutLen := rfl
@[simp] theorem setHostQueue_bitsWritten (s : State) (v : List HostStmt) : (s.setHostQueue v).bitsWritten = s.bitsWritten := rfl
@[simp] theorem setHostQueue_car (s : State) (v : List HostStmt) : (s.setHostQueue v).car = s.car := rfl
@[simp] theorem setHostQueue_mIn (s : State) (v : List HostStmt) : (s.setHostQueue v).mIn = s.mIn := rfl
@[simp] theorem setHostQueue_mOut (s : State) (v : List HostStmt) : (s.setHostQueue v).mOut = s.mOut := rfl
@[simp] theorem setHostQueue_seq (s : State) (v : List HostStmt) : (s.setHostQueue v).seq = s.seq := rfl
@[simp] theorem setHostQueue_held (s : State) (v : List HostStmt) : (s.setHostQueue v).held = s.held := rfl
@[simp] theorem setHostQueue_hostQueue (s : State) (v : List HostStmt) : (s.setHostQueue v).hostQueue = v := rfl
@[simp] theorem setHostQueue_hostGot (s : State) (v : List HostStmt) : (s.setHostQueue v).hostGot = s.hostGot := rfl
@[simp] theorem setHostQueue_turns (s : State) (v : List HostStmt) : (s.setHostQueue v).turns = s.turns := rfl
@[simp] theorem setHostQueue_draws (s : State) (v : List HostStmt) : (s.setHostQueue v).draws = s.draws := rfl

@[simp] theorem setHostGot_params (s : State) (v : List HostResult) : (s.setHostGot v).params = s.params := rfl
@[simp] theorem setHostGot_slot (s : State) (v : List HostResult) : (s.setHostGot v).slot = s.slot := rfl
@[simp] theorem setHostGot_status (s : State) (v : List HostResult) : (s.setHostGot v).status = s.status := rfl
@[simp] theorem setHostGot_config (s : State) (v : List HostResult) : (s.setHostGot v).config = s.config := rfl
@[simp] theorem setHostGot_msgInLen (s : State) (v : List HostResult) : (s.setHostGot v).msgInLen = s.msgInLen := rfl
@[simp] theorem setHostGot_msgOutLen (s : State) (v : List HostResult) : (s.setHostGot v).msgOutLen = s.msgOutLen := rfl
@[simp] theorem setHostGot_bitsWritten (s : State) (v : List HostResult) : (s.setHostGot v).bitsWritten = s.bitsWritten := rfl
@[simp] theorem setHostGot_car (s : State) (v : List HostResult) : (s.setHostGot v).car = s.car := rfl
@[simp] theorem setHostGot_mIn (s : State) (v : List HostResult) : (s.setHostGot v).mIn = s.mIn := rfl
@[simp] theorem setHostGot_mOut (s : State) (v : List HostResult) : (s.setHostGot v).mOut = s.mOut := rfl
@[simp] theorem setHostGot_seq (s : State) (v : List HostResult) : (s.setHostGot v).seq = s.seq := rfl
@[simp] theorem setHostGot_held (s : State) (v : List HostResult) : (s.setHostGot v).held = s.held := rfl
@[simp] theorem setHostGot_hostQueue (s : State) (v : List HostResult) : (s.setHostGot v).hostQueue = s.hostQueue := rfl
@[simp] theorem setHostGot_hostGot (s : State) (v : List HostResult) : (s.setHostGot v).hostGot = v := rfl
@[simp] theorem setHostGot_turns (s : State) (v : List HostResult) : (s.setHostGot v).turns = s.turns := rfl
@[simp] theorem setHostGot_draws (s : State) (v : List HostResult) : (s.setHostGot v).draws = s.draws := rfl

@[simp] theorem setTurns_params (s : State) (v : List Turn) : (s.setTurns v).params = s.params := rfl
@[simp] theorem setTurns_slot (s : State) (v : List Turn) : (s.setTurns v).slot = s.slot := rfl
@[simp] theorem setTurns_status (s : State) (v : List Turn) : (s.setTurns v).status = s.status := rfl
@[simp] theorem setTurns_config (s : State) (v : List Turn) : (s.setTurns v).config = s.config := rfl
@[simp] theorem setTurns_msgInLen (s : State) (v : List Turn) : (s.setTurns v).msgInLen = s.msgInLen := rfl
@[simp] theorem setTurns_msgOutLen (s : State) (v : List Turn) : (s.setTurns v).msgOutLen = s.msgOutLen := rfl
@[simp] theorem setTurns_bitsWritten (s : State) (v : List Turn) : (s.setTurns v).bitsWritten = s.bitsWritten := rfl
@[simp] theorem setTurns_car (s : State) (v : List Turn) : (s.setTurns v).car = s.car := rfl
@[simp] theorem setTurns_mIn (s : State) (v : List Turn) : (s.setTurns v).mIn = s.mIn := rfl
@[simp] theorem setTurns_mOut (s : State) (v : List Turn) : (s.setTurns v).mOut = s.mOut := rfl
@[simp] theorem setTurns_seq (s : State) (v : List Turn) : (s.setTurns v).seq = s.seq := rfl
@[simp] theorem setTurns_held (s : State) (v : List Turn) : (s.setTurns v).held = s.held := rfl
@[simp] theorem setTurns_hostQueue (s : State) (v : List Turn) : (s.setTurns v).hostQueue = s.hostQueue := rfl
@[simp] theorem setTurns_hostGot (s : State) (v : List Turn) : (s.setTurns v).hostGot = s.hostGot := rfl
@[simp] theorem setTurns_turns (s : State) (v : List Turn) : (s.setTurns v).turns = v := rfl
@[simp] theorem setTurns_draws (s : State) (v : List Turn) : (s.setTurns v).draws = s.draws := rfl

@[simp] theorem setDraws_params (s : State) (v : Nat) : (s.setDraws v).params = s.params := rfl
@[simp] theorem setDraws_slot (s : State) (v : Nat) : (s.setDraws v).slot = s.slot := rfl
@[simp] theorem setDraws_status (s : State) (v : Nat) : (s.setDraws v).status = s.status := rfl
@[simp] theorem setDraws_config (s : State) (v : Nat) : (s.setDraws v).config = s.config := rfl
@[simp] theorem setDraws_msgInLen (s : State) (v : Nat) : (s.setDraws v).msgInLen = s.msgInLen := rfl
@[simp] theorem setDraws_msgOutLen (s : State) (v : Nat) : (s.setDraws v).msgOutLen = s.msgOutLen := rfl
@[simp] theorem setDraws_bitsWritten (s : State) (v : Nat) : (s.setDraws v).bitsWritten = s.bitsWritten := rfl
@[simp] theorem setDraws_car (s : State) (v : Nat) : (s.setDraws v).car = s.car := rfl
@[simp] theorem setDraws_mIn (s : State) (v : Nat) : (s.setDraws v).mIn = s.mIn := rfl
@[simp] theorem setDraws_mOut (s : State) (v : Nat) : (s.setDraws v).mOut = s.mOut := rfl
@[simp] theorem setDraws_seq (s : State) (v : Nat) : (s.setDraws v).seq = s.seq := rfl
@[simp] theorem setDraws_held (s : State) (v : Nat) : (s.setDraws v).held = s.held := rfl
@[simp] theorem setDraws_hostQueue (s : State) (v : Nat) : (s.setDraws v).hostQueue = s.hostQueue := rfl
@[simp] theorem setDraws_hostGot (s : State) (v : Nat) : (s.setDraws v).hostGot = s.hostGot := rfl
@[simp] theorem setDraws_turns (s : State) (v : Nat) : (s.setDraws v).turns = s.turns := rfl
@[simp] theorem setDraws_draws (s : State) (v : Nat) : (s.setDraws v).draws = v := rfl

@[simp] theorem setMode_params (s : State) (m : Mode) : (s.setMode m).params = s.params := rfl
@[simp] theorem setMode_slot (s : State) (m : Mode) : (s.setMode m).slot = s.slot := rfl
@[simp] theorem setMode_status (s : State) (m : Mode) : (s.setMode m).status = s.status := rfl
@[simp] theorem setMode_config (s : State) (m : Mode) : (s.setMode m).config = s.config := rfl
@[simp] theorem setMode_msgInLen (s : State) (m : Mode) : (s.setMode m).msgInLen = s.msgInLen := rfl
@[simp] theorem setMode_msgOutLen (s : State) (m : Mode) : (s.setMode m).msgOutLen = s.msgOutLen := rfl
@[simp] theorem setMode_bitsWritten (s : State) (m : Mode) : (s.setMode m).bitsWritten = s.bitsWritten := rfl
@[simp] theorem setMode_car (s : State) (m : Mode) : (s.setMode m).car = s.car := rfl
@[simp] theorem setMode_mIn (s : State) (m : Mode) : (s.setMode m).mIn = s.mIn := rfl
@[simp] theorem setMode_mOut (s : State) (m : Mode) : (s.setMode m).mOut = s.mOut := rfl
@[simp] theorem setMode_seq (s : State) (m : Mode) : (s.setMode m).seq = { s.seq with mode := m } := rfl
@[simp] theorem setMode_held (s : State) (m : Mode) : (s.setMode m).held = s.held := rfl
@[simp] theorem setMode_hostQueue (s : State) (m : Mode) : (s.setMode m).hostQueue = s.hostQueue := rfl
@[simp] theorem setMode_hostGot (s : State) (m : Mode) : (s.setMode m).hostGot = s.hostGot := rfl
@[simp] theorem setMode_turns (s : State) (m : Mode) : (s.setMode m).turns = s.turns := rfl
@[simp] theorem setMode_draws (s : State) (m : Mode) : (s.setMode m).draws = s.draws := rfl

end Sys2Proof.Machine
end

