-- ==== Sys2Proof/Laws/Ops.lean ====
section
/-! SUPPORT. What each named operation does: Complete, LsbRead and LsbWrite, reset, and the buffers by name. -/

namespace Sys2Proof.Machine

/-! ## Complete (60_exceptions.md R121): STATUS and SEQ.MODE, nothing else -/

/-- All a completion does. -/
theorem complete_eq (e : ErrorCode) (r t f : Bit) (s : State) :
    complete e r t f s = { s with status := completeStatus e r t f, seq := { s.seq with mode := .idle } } := rfl

@[simp] theorem complete_status (e : ErrorCode) (r t f : Bit) (s : State) :
    (complete e r t f s).status = completeStatus e r t f := rfl
@[simp] theorem complete_seq (e : ErrorCode) (r t f : Bit) (s : State) :
    (complete e r t f s).seq = { s.seq with mode := .idle } := rfl
@[simp] theorem complete_params (e : ErrorCode) (r t f : Bit) (s : State) : (complete e r t f s).params = s.params := rfl
@[simp] theorem complete_slot (e : ErrorCode) (r t f : Bit) (s : State) : (complete e r t f s).slot = s.slot := rfl
@[simp] theorem complete_config (e : ErrorCode) (r t f : Bit) (s : State) : (complete e r t f s).config = s.config := rfl
@[simp] theorem complete_msgInLen (e : ErrorCode) (r t f : Bit) (s : State) :
    (complete e r t f s).msgInLen = s.msgInLen := rfl
@[simp] theorem complete_msgOutLen (e : ErrorCode) (r t f : Bit) (s : State) :
    (complete e r t f s).msgOutLen = s.msgOutLen := rfl
@[simp] theorem complete_bitsWritten (e : ErrorCode) (r t f : Bit) (s : State) :
    (complete e r t f s).bitsWritten = s.bitsWritten := rfl
@[simp] theorem complete_car (e : ErrorCode) (r t f : Bit) (s : State) : (complete e r t f s).car = s.car := rfl
@[simp] theorem complete_mIn (e : ErrorCode) (r t f : Bit) (s : State) : (complete e r t f s).mIn = s.mIn := rfl
@[simp] theorem complete_mOut (e : ErrorCode) (r t f : Bit) (s : State) : (complete e r t f s).mOut = s.mOut := rfl
@[simp] theorem complete_held (e : ErrorCode) (r t f : Bit) (s : State) : (complete e r t f s).held = s.held := rfl
@[simp] theorem complete_hostQueue (e : ErrorCode) (r t f : Bit) (s : State) :
    (complete e r t f s).hostQueue = s.hostQueue := rfl
@[simp] theorem complete_hostGot (e : ErrorCode) (r t f : Bit) (s : State) :
    (complete e r t f s).hostGot = s.hostGot := rfl
@[simp] theorem complete_turns (e : ErrorCode) (r t f : Bit) (s : State) : (complete e r t f s).turns = s.turns := rfl
@[simp] theorem complete_draws (e : ErrorCode) (r t f : Bit) (s : State) : (complete e r t f s).draws = s.draws := rfl

/-- `raise Error(code)` is `Complete(code, 0, 0, 0)`. -/
theorem raiseError_eq (e : ErrorCode) (s : State) : raiseError e s = complete e false false false s := rfl

/-! ## The bit plane (20_memory.md R46, R47) -/

/-- The sample after LsbWrite, as a number. -/
theorem withLsb_toNat (v : Byte) (b : Bit) : (withLsb v b).toNat = v.toNat / 2 * 2 + bitNat b := by
  have hv := v.isLt
  have hb : bitNat b < 2 := by cases b <;> decide
  simp only [withLsb, BitVec.toNat_ofNat]
  exact Nat.mod_eq_of_lt (by omega)

/-- Bit 0 of the sample after LsbWrite. -/
theorem withLsb_bit0 (v : Byte) (b : Bit) : (withLsb v b).getLsbD 0 = b := by
  simp only [BitVec.getLsbD, withLsb_toNat, Nat.testBit_zero]
  cases b <;> simp [bitNat]

/-- Bits 7:1 of the sample stay. -/
@[simp] theorem withLsb_half (v : Byte) (b : Bit) : (withLsb v b).toNat / 2 = v.toNat / 2 := by
  have hb : bitNat b < 2 := by cases b <;> decide
  rw [withLsb_toNat]; omega

/-- Setting bit 0 twice is setting it once. -/
@[simp] theorem withLsb_withLsb (v : Byte) (b c : Bit) : withLsb (withLsb v b) c = withLsb v c := by
  apply BitVec.eq_of_toNat_eq
  rw [withLsb_toNat, withLsb_half, withLsb_toNat]

/-- Writing the current bit 0 leaves the sample. -/
theorem withLsb_self (v : Byte) : withLsb v (v.getLsbD 0) = v := by
  apply BitVec.eq_of_toNat_eq
  rw [withLsb_toNat, BitVec.getLsbD, Nat.testBit_zero]
  by_cases h : v.toNat % 2 = 1 <;> simp [h, bitNat] <;> omega

/-- `withLsb_bit0` in simp normal form. -/
@[simp] theorem withLsb_getElem0 (v : Byte) (b : Bit) : (withLsb v b)[0] = b := withLsb_bit0 v b

/-- `withLsb_self` in simp normal form. -/
@[simp] theorem withLsb_self_getElem (v : Byte) : withLsb v v[0] = v := withLsb_self v

/-- Every byte after LsbWrite: slot `s` with its bit 0 set, every other as before. -/
theorem memRead_lsbWrite (m : Memory) (s : Nat) (b : Bit) (a : Nat) :
    memRead .car (lsbWrite m s b) a = if a = s then withLsb (memRead .car m s) b else memRead .car m a :=
  memRead_memWrite m s _ a

/-- The bit of every slot after LsbWrite. -/
theorem lsbRead_lsbWrite (m : Memory) (s : Nat) (b : Bit) (a : Nat) :
    lsbRead (lsbWrite m s b) a = if a = s then b else lsbRead m a := by
  rw [lsbRead, memRead_lsbWrite]
  split_ifs
  · exact withLsb_bit0 _ _
  · rfl

/-- Writing the current bit of a slot leaves every byte as it reads, and the buffer's data where the slot has been
written. -/
theorem lsbWrite_lsbRead {m : Memory} (h : m.wf = true) (s : Nat) :
    (∀ a, memRead .car (lsbWrite m s (lsbRead m s)) a = memRead .car m a)
      ∧ (memGet m s ≠ none → lsbWrite m s (lsbRead m s) = m) := by
  refine ⟨fun a => ?_, fun hs => ?_⟩
  · rw [memRead_lsbWrite]
    split_ifs with e
    · rw [e]; exact withLsb_self _
    · rfl
  · obtain ⟨v, hv⟩ := Option.ne_none_iff_exists'.mp hs
    refine memWrite_self h ?_
    rw [show withLsb (memRead .car m s) (lsbRead m s) = memRead .car m s from withLsb_self _, memRead, hv]
    rfl

/-- Of two LsbWrites of one slot the second stands. -/
theorem lsbWrite_lsbWrite {m : Memory} (h : m.wf = true) (s : Nat) (b c : Bit) :
    lsbWrite (lsbWrite m s b) s c = lsbWrite m s c := by
  have hv : memRead .car (lsbWrite m s b) s = withLsb (memRead .car m s) b := by rw [memRead_lsbWrite, if_pos rfl]
  rw [lsbWrite, hv, withLsb_withLsb]
  exact memWrite_memWrite h s _ _

theorem wf_lsbWrite {m : Memory} (h : m.wf = true) (s : Nat) (b : Bit) : (lsbWrite m s b).wf = true :=
  wf_memWrite h s _

theorem memBelow_lsbWrite {m : Memory} {size s : Nat} (h : memBelow size m = true) (hs : s < size) (b : Bit) :
    memBelow size (lsbWrite m s b) = true :=
  memBelow_memWrite h hs _

/-! ## The buffers by name -/

@[simp] theorem bufOf_car (s : State) : bufOf .car s = s.car := rfl
@[simp] theorem bufOf_min (s : State) : bufOf .min s = s.mIn := rfl
@[simp] theorem bufOf_mout (s : State) : bufOf .mout s = s.mOut := rfl

/-- The bytes of every buffer after one is replaced. -/
theorem bufOf_setBuf (b c : Buffer) (s : State) (m : Memory) :
    bufOf c (setBuf b s m) = if c = b then m else bufOf c s := by
  cases b <;> cases c <;> rfl

/-- Replacing a buffer changes nothing but the buffers. -/
theorem setBuf_eq (b : Buffer) (s : State) (m : Memory) :
    setBuf b s m = { s with car := (setBuf b s m).car, mIn := (setBuf b s m).mIn, mOut := (setBuf b s m).mOut } := by
  cases b <;> rfl

/-! ## Reset (70_reset_and_hazards.md R140) -/

/-- All a reset does. -/
theorem resetOp_eq (s : State) :
    resetOp s = { s with
      status := 0, slot := 0, config := 0, msgInLen := 0, msgOutLen := 0, bitsWritten := 0,
      seq := freeSeq s.params s.draws, held := none, draws := s.draws + 5 } := rfl

/-- The free values of a reset are in the ranges of 10_state.md R31. -/
theorem freeSeq_inRange (p : Params) (d : Nat) :
    (freeSeq p d).mode = .idle ∧ (freeSeq p d).idx ≤ p.cap ∧ (freeSeq p d).lim ≤ p.cap
      ∧ (freeSeq p d).n ≤ p.msgBufBytes ∧ (freeSeq p d).accn ≤ 7 ∧ (freeSeq p d).outk ≤ p.outBufBytes := by
  refine ⟨rfl, ?_, ?_, ?_, ?_, ?_⟩ <;> simp only [freeSeq] <;>
    exact Nat.le_of_lt_succ (Nat.mod_lt _ (by omega))

/-! ## Operands (30_encoding.md R61) -/

@[simp] theorem minBytes_length (s : State) (n : Nat) : (minBytes s n).length = n := by simp [minBytes]

/-- The bytes of the message by index. -/
theorem minBytes_getD (s : State) {n j : Nat} (h : j < n) : (minBytes s n).getD j 0 = memRead .min s.mIn j := by
  simp [minBytes, h]

end Sys2Proof.Machine
end

