-- ==== Sys2Proof/Laws/Stego.lean ====
section
/-! SUPPORT. The loops of EMBED and EXTRACT (42_stego.md R95, R99): what they leave, said once. -/

namespace Sys2Proof.Machine

/-- The carrier after the loop of R95 stays canonical. -/
theorem wf_embedSlots (m : List Byte) {car : Memory} (h : car.wf = true) (n : Nat) : (embedSlots m car n).wf = true := by
  induction n with
  | zero => exact h
  | succ n ih => exact wf_lsbWrite ih n _

theorem memBelow_embedSlots (m : List Byte) {car : Memory} {size : Nat} (h : memBelow size car = true) {n : Nat}
    (hn : n ≤ size) : memBelow size (embedSlots m car n) = true := by
  induction n with
  | zero => exact h
  | succ n ih => exact memBelow_lsbWrite (ih (by omega)) (by omega) _

/-- Every sample after the loop of R95 (R96): bit 0 set to the payload bit below `n`, unchanged from `n` on. -/
theorem memRead_embedSlots (m : List Byte) (car : Memory) (n a : Nat) :
    memRead .car (embedSlots m car n) a = if a < n then withLsb (memRead .car car a) (payloadBit m a) else memRead .car car a := by
  induction n with
  | zero => simp [embedSlots]
  | succ n ih =>
    rw [embedSlots, memRead_lsbWrite]
    by_cases ha : a = n
    · subst ha
      rw [ih]; simp
    · rw [if_neg ha, ih]
      have : (a < n + 1) = (a < n) := by simp only [eq_iff_iff]; omega
      simp only [this]

/-- The bit of every slot after the loop of R95 (R96). -/
theorem lsbRead_embedSlots (m : List Byte) (car : Memory) (n a : Nat) :
    lsbRead (embedSlots m car n) a = if a < n then payloadBit m a else lsbRead car a := by
  rw [lsbRead, memRead_embedSlots]
  split_ifs
  · exact withLsb_bit0 _ _
  · rfl

/-- Bit `7 - i` of group `k` is the bit of slot `8k + i` (R99: bit 8k first). -/
theorem groupAt_getLsbD (car : Memory) (k : Nat) {i : Nat} (hi : i < 8) :
    (groupAt car k).getLsbD (7 - i) = lsbRead car (8 * k + i) :=
  groupByte_getLsbD (fun j => lsbRead car (8 * k + j)) hi

/-- A group is the byte whose bits its slots hold. -/
theorem groupAt_eq {car : Memory} {k : Nat} {v : Byte} (h : ∀ i, i < 8 → lsbRead car (8 * k + i) = v.getLsbD (7 - i)) :
    groupAt car k = v :=
  groupByte_eq (g := fun j => lsbRead car (8 * k + j)) h

/-- All the scan of R99 does from group `k` with `left` groups to read: it copies groups `k .. r.k - 1`, none of them
0xFF, and ends at a stop group or after the last. -/
theorem scanGroups_spec (car : Memory) (left k : Nat) {mOut : Memory} (h : mOut.wf = true) :
    k ≤ (scanGroups car left k mOut).k ∧ (scanGroups car left k mOut).k ≤ k + left
    ∧ (∀ j, k ≤ j → j < (scanGroups car left k mOut).k → groupAt car j ≠ 0xFF)
    ∧ ((scanGroups car left k mOut).found = true →
        (scanGroups car left k mOut).k < k + left ∧ groupAt car (scanGroups car left k mOut).k = 0xFF)
    ∧ ((scanGroups car left k mOut).found = false → (scanGroups car left k mOut).k = k + left)
    ∧ (scanGroups car left k mOut).mOut.wf = true
    ∧ ∀ a, memRead .mout (scanGroups car left k mOut).mOut a =
        if k ≤ a ∧ a < (scanGroups car left k mOut).k then groupAt car a else memRead .mout mOut a := by
  induction left generalizing k mOut with
  | zero =>
    refine ⟨le_refl _, le_refl _, fun j h1 h2 => ?_, fun hf => ?_, fun _ => rfl, h, fun a => ?_⟩
    · simp only [scanGroups] at h2; omega
    · simp [scanGroups] at hf
    · have : ¬ (k ≤ a ∧ a < k) := by omega
      simp [scanGroups, this]
  | succ left ih =>
    rw [scanGroups]
    split_ifs with hs
    · have hg : groupAt car k = 0xFF := (isStop_iff _).mp hs
      refine ⟨le_refl _, by simp, fun j h1 h2 => ?_, fun _ => ⟨by simp, hg⟩, fun hf => ?_, h, fun a => ?_⟩
      · simp at h2; omega
      · simp at hf
      · have : ¬ (k ≤ a ∧ a < k) := by omega
        simp [this]
    · have hg : groupAt car k ≠ 0xFF := fun e => hs ((isStop_iff _).mpr e)
      obtain ⟨i1, i2, i3, i4, i5, i6, i7⟩ := ih (k + 1) (wf_memWrite h k (groupAt car k))
      refine ⟨by omega, by omega, fun j h1 h2 => ?_, fun hf => ?_, fun hf => ?_, i6, fun a => ?_⟩
      · by_cases hj : j = k
        · subst hj; exact hg
        · exact i3 j (by omega) h2
      · exact ⟨by have := (i4 hf).1; omega, (i4 hf).2⟩
      · have := i5 hf; omega
      · rw [i7 a, memRead_memWrite]
        by_cases ha : a = k
        · subst ha
          have h1 : ¬ (a + 1 ≤ a ∧ a < (scanGroups car left (a + 1) (memWrite mOut a (groupAt car a))).k) := by omega
          have h2 : a ≤ a ∧ a < (scanGroups car left (a + 1) (memWrite mOut a (groupAt car a))).k := by omega
          rw [if_neg h1, if_pos h2, if_pos rfl]
        · have : (k + 1 ≤ a) = (k ≤ a) := by simp only [eq_iff_iff]; omega
          simp only [this, ha, if_false]

/-- All the scan of EXTRACT does (R99, R100): it copies the groups before the first stop group, or every complete
group. -/
theorem extractScan_spec {s : State} (h : s.mOut.wf = true) :
    (extractScan s).k ≤ s.params.cap / 8
    ∧ (∀ j, j < (extractScan s).k → groupAt s.car j ≠ 0xFF)
    ∧ ((extractScan s).found = true →
        (extractScan s).k < s.params.cap / 8 ∧ groupAt s.car (extractScan s).k = 0xFF)
    ∧ ((extractScan s).found = false → (extractScan s).k = s.params.cap / 8)
    ∧ (extractScan s).mOut.wf = true
    ∧ ∀ a, memRead .mout (extractScan s).mOut a = if a < (extractScan s).k then groupAt s.car a else memRead .mout s.mOut a := by
  obtain ⟨-, i2, i3, i4, i5, i6, i7⟩ := scanGroups_spec s.car (s.params.cap / 8) 0 h
  simp only [Nat.zero_add, Nat.zero_le, true_and] at i2 i4 i5 i7
  exact ⟨i2, fun j hj => i3 j (Nat.zero_le j) hj, i4, i5, i6, i7⟩

/-- How many groups the scan copies and whether it found a stop group depend on the groups it may read, and not on
MOUT. -/
theorem scanGroups_congr {car car' : Memory} (left k : Nat) (m n : Memory)
    (h : ∀ j, k ≤ j → j < k + left → groupAt car j = groupAt car' j) :
    (scanGroups car left k m).k = (scanGroups car' left k n).k
    ∧ (scanGroups car left k m).found = (scanGroups car' left k n).found := by
  induction left generalizing k m n with
  | zero => simp [scanGroups]
  | succ left ih =>
    simp only [scanGroups, h k (le_refl k) (by omega)]
    split_ifs
    · simp
    · exact ih _ _ _ fun j h1 h2 => h j (by omega) (by omega)

/-- A group depends on what its eight samples read. -/
theorem groupAt_congr {car car' : Memory} {k : Nat}
    (h : ∀ a, 8 * k ≤ a → a < 8 * k + 8 → memRead .car car a = memRead .car car' a) : groupAt car k = groupAt car' k :=
  groupAt_eq fun i hi => by
    rw [groupAt_getLsbD _ _ hi, lsbRead, lsbRead, h _ (by omega) (by omega)]

/-- The scan ends at group `k` when the groups before it are no stop groups and it is one, or is past the last. -/
theorem scanGroups_end (car : Memory) {left k : Nat} (mOut : Memory) (hk : k ≤ left)
    (hb : ∀ j, j < k → groupAt car j ≠ 0xFF) (he : k < left → groupAt car k = 0xFF) (h : mOut.wf = true) :
    (scanGroups car left 0 mOut).k = k ∧ (scanGroups car left 0 mOut).found = decide (k < left) := by
  obtain ⟨-, i2, i3, i4, i5, -, -⟩ := scanGroups_spec car left 0 h
  cases hf : (scanGroups car left 0 mOut).found with
  | true =>
    obtain ⟨h1, h2⟩ := i4 hf
    have hkk : (scanGroups car left 0 mOut).k = k := by
      rcases Nat.lt_trichotomy (scanGroups car left 0 mOut).k k with hlt | heq | hgt
      · exact absurd h2 (hb _ hlt)
      · exact heq
      · exact absurd (he (by omega)) (i3 k (by omega) hgt)
    refine ⟨hkk, ?_⟩
    have : k < left := by omega
    simp [this]
  | false =>
    have h1 := i5 hf
    have hkk : k = left := by
      by_contra hne
      exact i3 k (by omega) (by omega) (he (by omega))
    refine ⟨by omega, ?_⟩
    simp [hkk]

/-- The group register after `n + 1` bits of the bit plane (R114). -/
theorem partialAcc_succ (car : Memory) (lo n : Nat) :
    partialAcc car lo (n + 1) = shiftIn (partialAcc car lo n) (lsbRead car (lo + n)) := rfl

/-- After `n ≤ 8` bits the group register is below `2 ^ n` (R114). -/
theorem partialAcc_lt (car : Memory) (lo : Nat) {n : Nat} (hn : n ≤ 8) : (partialAcc car lo n).toNat < 2 ^ n := by
  induction n with
  | zero => simp [partialAcc]
  | succ n ih =>
    have h1 := ih (by omega)
    have hb : bitNat (lsbRead car (lo + n)) < 2 := by cases lsbRead car (lo + n) <;> decide
    rw [partialAcc_succ, shiftIn, BitVec.toNat_ofNat]
    refine lt_of_le_of_lt (Nat.mod_le _ _) ?_
    rw [pow_succ]; omega

/-- Eight bits shifted in are the byte of the group (R99, R114). -/
theorem partialAcc_group (car : Memory) (k : Nat) : partialAcc car (8 * k) 8 = groupAt car k := by
  have key : ∀ b0 b1 b2 b3 b4 b5 b6 b7 : Bit,
      shiftIn (shiftIn (shiftIn (shiftIn (shiftIn (shiftIn (shiftIn (shiftIn 0 b0) b1) b2) b3) b4) b5) b6) b7
        = groupByte b0 b1 b2 b3 b4 b5 b6 b7 := by decide +kernel
  exact key _ _ _ _ _ _ _ _

end Sys2Proof.Machine
end

