-- ==== Sys2Proof/Laws/Exec.lean ====
section
/-! SUPPORT. What each command does when it runs, and what no command changes. -/

namespace Sys2Proof.Machine

/-- What neither a command nor a sequencer step changes: the parameters, the registers the HOST writes, MIN, and the
HOST's side of the port. -/
structure SeqFrame (s t : State) : Prop where
  params : t.params = s.params
  slot : t.slot = s.slot
  config : t.config = s.config
  msgInLen : t.msgInLen = s.msgInLen
  mIn : t.mIn = s.mIn
  held : t.held = s.held
  hostQueue : t.hostQueue = s.hostQueue
  hostGot : t.hostGot = s.hostGot
  turns : t.turns = s.turns
  draws : t.draws = s.draws

theorem SeqFrame.refl (s : State) : SeqFrame s s := ⟨rfl, rfl, rfl, rfl, rfl, rfl, rfl, rfl, rfl, rfl⟩

theorem SeqFrame.trans {s t u : State} (h : SeqFrame s t) (k : SeqFrame t u) : SeqFrame s u :=
  ⟨k.params.trans h.params, k.slot.trans h.slot, k.config.trans h.config, k.msgInLen.trans h.msgInLen,
    k.mIn.trans h.mIn, k.held.trans h.held, k.hostQueue.trans h.hostQueue, k.hostGot.trans h.hostGot,
    k.turns.trans h.turns, k.draws.trans h.draws⟩

/-- A completion over a state keeps its frame. -/
theorem SeqFrame.complete {s t : State} (h : SeqFrame s t) (e : ErrorCode) (r tr f : Bit) :
    SeqFrame s (complete e r tr f t) :=
  ⟨h.params, h.slot, h.config, h.msgInLen, h.mIn, h.held, h.hostQueue, h.hostGot, h.turns, h.draws⟩

theorem SeqFrame.setCar {s t : State} (h : SeqFrame s t) (m : Memory) : SeqFrame s (t.setCar m) :=
  ⟨h.params, h.slot, h.config, h.msgInLen, h.mIn, h.held, h.hostQueue, h.hostGot, h.turns, h.draws⟩

theorem SeqFrame.setMOut {s t : State} (h : SeqFrame s t) (m : Memory) : SeqFrame s (t.setMOut m) :=
  ⟨h.params, h.slot, h.config, h.msgInLen, h.mIn, h.held, h.hostQueue, h.hostGot, h.turns, h.draws⟩

theorem SeqFrame.setSeq {s t : State} (h : SeqFrame s t) (q : Seq) : SeqFrame s (t.setSeq q) :=
  ⟨h.params, h.slot, h.config, h.msgInLen, h.mIn, h.held, h.hostQueue, h.hostGot, h.turns, h.draws⟩

theorem SeqFrame.setBitsWritten {s t : State} (h : SeqFrame s t) (v : Word) : SeqFrame s (t.setBitsWritten v) :=
  ⟨h.params, h.slot, h.config, h.msgInLen, h.mIn, h.held, h.hostQueue, h.hostGot, h.turns, h.draws⟩

theorem SeqFrame.setMsgOutLen {s t : State} (h : SeqFrame s t) (v : Word) : SeqFrame s (t.setMsgOutLen v) :=
  ⟨h.params, h.slot, h.config, h.msgInLen, h.mIn, h.held, h.hostQueue, h.hostGot, h.turns, h.draws⟩

/-- A slot operand is valid when it is below CAP (41_slot_access.md R87). -/
theorem slotValid_iff (s : State) : slotValid s = true ↔ s.slot.toNat < s.params.cap :=
  decide_eq_true_iff

/-- WRBIT on a slot that exists (R88). -/
theorem execWrbit_valid {s : State} (b : Bit) (h : s.slot.toNat < s.params.cap) :
    execWrbit b s = .next (complete .none false false false (s.setCar (lsbWrite s.car s.slot.toNat b))) := by
  simp [execWrbit, (slotValid_iff s).mpr h, slotOperand]

/-- WRBIT on a slot that does not exist (R87). -/
theorem execWrbit_invalid {s : State} (b : Bit) (h : s.params.cap ≤ s.slot.toNat) :
    execWrbit b s = .next (raiseError .slotRange s) := by
  rw [execWrbit, if_neg (fun hv => by have := (slotValid_iff s).mp hv; omega)]

/-- RDBIT on a slot that exists (R90). -/
theorem execRdbit_valid {s : State} (h : s.slot.toNat < s.params.cap) :
    execRdbit s = .next (complete .none (lsbRead s.car s.slot.toNat) false false s) := by
  simp [execRdbit, (slotValid_iff s).mpr h, slotOperand]

/-- RDBIT on a slot that does not exist (R87). -/
theorem execRdbit_invalid {s : State} (h : s.params.cap ≤ s.slot.toNat) :
    execRdbit s = .next (raiseError .slotRange s) := by
  rw [execRdbit, if_neg (fun hv => by have := (slotValid_iff s).mp hv; omega)]

/-- The state an EMBED that succeeds leaves (R95). -/
def embedded (s : State) : State :=
  complete .none false (decide (s.params.cap < payloadLen (msgLen s))) false
    (((s.setCar (embedSlots (minBytes s (msgLen s)) s.car (min (payloadLen (msgLen s)) s.params.cap))).setBitsWritten
      (zext32 (min (payloadLen (msgLen s)) s.params.cap))).setSeq
      (seqAfterEmbed s.seq (msgLen s) (min (payloadLen (msgLen s)) s.params.cap)
        (decide (s.params.cap < payloadLen (msgLen s)))))

/-- EMBED with a message longer than the buffer (R95). -/
theorem execEmbed_tooLong {s : State} (h : s.params.msgBufBytes < msgLen s) :
    execEmbed s = .next (raiseError .msgLenRange (s.setBitsWritten 0)) := by rw [execEmbed, if_pos h]

/-- EMBED whose payload overflows under FAIL (R95). -/
theorem execEmbed_overflow {s : State} (h : msgLen s ≤ s.params.msgBufBytes)
    (ho : s.params.cap < payloadLen (msgLen s)) (hp : policyFail s = true) :
    execEmbed s = .next (raiseError .capacityExceeded (s.setBitsWritten 0)) := by
  rw [execEmbed, if_neg (Nat.not_lt.mpr h), if_pos]
  rw [Bool.and_eq_true, decide_eq_true_eq]
  exact ⟨ho, hp⟩

/-- EMBED that succeeds (R95). -/
theorem execEmbed_succeeds {s : State} (h : msgLen s ≤ s.params.msgBufBytes)
    (hs : ¬ (s.params.cap < payloadLen (msgLen s) ∧ policyFail s = true)) :
    execEmbed s = .next (embedded s) := by
  rw [execEmbed, if_neg (Nat.not_lt.mpr h), if_neg]
  · rfl
  · rwa [Bool.and_eq_true, decide_eq_true_eq]

/-- EMBED ends in one of its three ways, and there is no other. -/
theorem execEmbed_cases (s : State) :
    (s.params.msgBufBytes < msgLen s ∧ execEmbed s = .next (raiseError .msgLenRange (s.setBitsWritten 0))) ∨
    (msgLen s ≤ s.params.msgBufBytes ∧ s.params.cap < payloadLen (msgLen s) ∧ policyFail s = true ∧
      execEmbed s = .next (raiseError .capacityExceeded (s.setBitsWritten 0))) ∨
    (msgLen s ≤ s.params.msgBufBytes ∧ ¬ (s.params.cap < payloadLen (msgLen s) ∧ policyFail s = true) ∧
      execEmbed s = .next (embedded s)) := by
  by_cases h : s.params.msgBufBytes < msgLen s
  · exact .inl ⟨h, execEmbed_tooLong h⟩
  · by_cases hs : s.params.cap < payloadLen (msgLen s) ∧ policyFail s = true
    · exact .inr (.inl ⟨by omega, hs.1, hs.2, execEmbed_overflow (by omega) hs.1 hs.2⟩)
    · exact .inr (.inr ⟨by omega, hs, execEmbed_succeeds (by omega) hs⟩)

/-- The state EXTRACT leaves (R99). -/
def extracted (s : State) : State :=
  complete .none false false (extractScan s).found
    (((s.setMOut (extractScan s).mOut).setMsgOutLen (zext32 (extractScan s).k)).setSeq
      (seqAfterExtract s.seq s.car s.params.cap (extractScan s)))

theorem execExtract_eq (s : State) : execExtract s = .next (extracted s) := rfl

theorem embedded_frame (s : State) : SeqFrame s (embedded s) :=
  ((((SeqFrame.refl s).setCar _).setBitsWritten _).setSeq _).complete _ _ _ _

theorem extracted_frame (s : State) : SeqFrame s (extracted s) :=
  ((((SeqFrame.refl s).setMOut _).setMsgOutLen _).setSeq _).complete _ _ _ _

/-- Every command completes: a next state with a completion's STATUS, an idle sequencer and the frame. -/
theorem exec_completes (i : Instr) (s : State) :
    ∃ t e r tr f, exec i s = .next t ∧ t.status = completeStatus e r tr f ∧ t.seq.mode = .idle ∧ SeqFrame s t := by
  cases i with
  | embed =>
    obtain ⟨-, h⟩ | ⟨-, -, -, h⟩ | ⟨-, -, h⟩ := execEmbed_cases s
    · exact ⟨_, _, _, _, _, h, rfl, rfl, ((SeqFrame.refl s).setBitsWritten _).complete _ _ _ _⟩
    · exact ⟨_, _, _, _, _, h, rfl, rfl, ((SeqFrame.refl s).setBitsWritten _).complete _ _ _ _⟩
    · exact ⟨_, _, _, _, _, h, rfl, rfl, embedded_frame s⟩
  | extract => exact ⟨_, _, _, _, _, rfl, rfl, rfl, extracted_frame s⟩
  | wrbit b =>
    by_cases h : s.slot.toNat < s.params.cap
    · exact ⟨_, _, _, _, _, execWrbit_valid b h, rfl, rfl, ((SeqFrame.refl s).setCar _).complete _ _ _ _⟩
    · exact ⟨_, _, _, _, _, execWrbit_invalid b (by omega), rfl, rfl, (SeqFrame.refl s).complete _ _ _ _⟩
  | rdbit =>
    by_cases h : s.slot.toNat < s.params.cap
    · exact ⟨_, _, _, _, _, execRdbit_valid h, rfl, rfl, (SeqFrame.refl s).complete _ _ _ _⟩
    · exact ⟨_, _, _, _, _, execRdbit_invalid (by omega), rfl, rfl, (SeqFrame.refl s).complete _ _ _ _⟩

/-- The carrier after a command: unchanged, or one LsbWrite of a slot that exists, or the loop of EMBED. -/
theorem exec_car {i : Instr} {s t : State} (h : exec i s = .next t) :
    t.car = s.car ∨ (∃ b, i = .wrbit b ∧ s.slot.toNat < s.params.cap ∧ t.car = lsbWrite s.car s.slot.toNat b) ∨
    (i = .embed ∧ t.car = embedSlots (minBytes s (msgLen s)) s.car (min (payloadLen (msgLen s)) s.params.cap)) := by
  cases i with
  | embed =>
    obtain ⟨-, k⟩ | ⟨-, -, -, k⟩ | ⟨-, -, k⟩ := execEmbed_cases s <;>
      · have k' := h.symm.trans k
        injection k' with k'
        subst k'
        first | exact .inl rfl | exact .inr (.inr ⟨rfl, rfl⟩)
  | extract => injection h with h; subst h; exact .inl rfl
  | wrbit b =>
    by_cases hv : s.slot.toNat < s.params.cap
    · have k := h.symm.trans (execWrbit_valid b hv)
      injection k with k; subst k
      exact .inr (.inl ⟨b, rfl, hv, rfl⟩)
    · have k := h.symm.trans (execWrbit_invalid b (by omega))
      injection k with k; subst k
      exact .inl rfl
  | rdbit =>
    by_cases hv : s.slot.toNat < s.params.cap
    · have k := h.symm.trans (execRdbit_valid hv)
      injection k with k; subst k
      exact .inl rfl
    · have k := h.symm.trans (execRdbit_invalid (by omega))
      injection k with k; subst k
      exact .inl rfl

end Sys2Proof.Machine
end

