-- ==== Sys2Proof/Laws/HostPort.lean ====
section
/-! SUPPORT. What a HOST access and a HOST turn do: one inversion lemma for each. -/

namespace Sys2Proof.Machine

/-- The register at an offset has that offset, and every register is found at its own (10_state.md R17). -/
theorem regAt_regOffset (r : HostReg) : regAt (regOffset r) = some r := by cases r <;> rfl

/-- There is a register at a multiple of 4 exactly up to 0x28 (10_state.md R17, 20_memory.md R41). -/
theorem regAt_isSome {off : Nat} (h4 : off % 4 = 0) : (regAt off).isSome = true ↔ off ≤ 0x28 := by
  constructor
  · intro h
    obtain ⟨r, hr⟩ := Option.isSome_iff_exists.mp h
    have := List.find?_some hr
    simp only [beq_iff_eq] at this
    rw [← this]; cases r <;> decide
  · intro h
    obtain ⟨q, rfl⟩ : ∃ q, off = 4 * q := ⟨off / 4, by omega⟩
    have hq : q ≤ 10 := by omega
    interval_cases q <;> rfl

/-- A 32-bit access at a register's offset selects it. -/
@[simp] theorem selectReg_regOffset (r : HostReg) : selectReg 32 (regOffset r) = .ok r := by cases r <;> rfl

/-- A REG access selects a register, or is a bus error for its width, its alignment or its offset (R41, R55). -/
theorem selectReg_cases (width off : Nat) :
    (width = 32 ∧ off % 4 = 0 ∧ off ≤ 0x28 ∧ ∃ r, selectReg width off = .ok r) ∨
    ((width ≠ 32 ∨ off % 4 ≠ 0 ∨ 0x28 < off) ∧ ∃ e, selectReg width off = .error e) := by
  unfold selectReg
  split_ifs with h1 h2
  · exact .inr ⟨.inl h1, _, rfl⟩
  · exact .inr ⟨.inr (.inl h2), _, rfl⟩
  · have h4 : off % 4 = 0 := by omega
    cases hr : regAt off with
    | some r => exact .inl ⟨by omega, h4, (regAt_isSome h4).mp (by simp [hr]), r, rfl⟩
    | none =>
      refine .inr ⟨.inr (.inr ?_), _, rfl⟩
      by_contra hle
      have := (regAt_isSome h4).mpr (by omega)
      simp [hr] at this

/-- A buffer access selects its byte, or is a bus error for its width or its address (R49, R55). -/
theorem selectByte_cases (p : Params) (b : Buffer) (width addr : Nat) :
    (width = 8 ∧ addr < bufSize p b ∧ selectByte p b width addr = .ok addr) ∨
    ((width ≠ 8 ∨ bufSize p b ≤ addr) ∧ ∃ e, selectByte p b width addr = .error e) := by
  unfold selectByte
  split_ifs with h1 h2
  · exact .inr ⟨.inl h1, _, rfl⟩
  · exact .inl ⟨by omega, h2, rfl⟩
  · exact .inr ⟨.inr (by omega), _, rfl⟩

/-- What the port admits: any register, any byte of a buffer to read, a byte of CAR or MIN to write. -/
theorem selectAccess_ok {p : Params} {a : HostAccess} {o : PortOp} (h : selectAccess p a = .ok o) :
    (∃ r, o = .readReg r) ∨ (∃ r v, o = .writeReg r v) ∨ (∃ b n, n < bufSize p b ∧ o = .readBuf b n) ∨
    (∃ b n v, b ≠ .mout ∧ n < bufSize p b ∧ o = .writeBuf b n v) := by
  cases a with
  | regRead w off =>
    obtain ⟨-, -, -, r, hr⟩ | ⟨-, e, he⟩ := selectReg_cases w off
    · simp only [selectAccess, hr] at h; injection h with h; exact .inl ⟨r, h.symm⟩
    · simp [selectAccess, he] at h
  | regWrite w off v =>
    obtain ⟨-, -, -, r, hr⟩ | ⟨-, e, he⟩ := selectReg_cases w off
    · simp only [selectAccess, hr] at h; injection h with h; exact .inr (.inl ⟨r, v, h.symm⟩)
    · simp [selectAccess, he] at h
  | bufRead b w n =>
    obtain ⟨-, hn, hs⟩ | ⟨-, e, he⟩ := selectByte_cases p b w n
    · simp only [selectAccess, hs] at h; injection h with h; exact .inr (.inr (.inl ⟨b, n, hn, h.symm⟩))
    · simp [selectAccess, he] at h
  | bufWrite b w n v =>
    by_cases hb : b = .mout
    · simp [selectAccess, hb] at h
    · obtain ⟨-, hn, hs⟩ | ⟨-, e, he⟩ := selectByte_cases p b w n
      · simp only [selectAccess, hb, if_false, hs] at h
        injection h with h
        exact .inr (.inr (.inr ⟨b, n, v, hb, hn, h.symm⟩))
      · simp [selectAccess, hb, he] at h

/-- All an access that takes effect does: a value for the HOST, a register write, or a byte of CAR or MIN. -/
theorem hostAccess_next {a : HostAccess} {s t : State} (h : hostAccess a s = .next t) :
    (∃ v, t = s.setHostGot (v :: s.hostGot)) ∨ (∃ r v, t = writeReg r v s) ∨
    (∃ b n v, b ≠ .mout ∧ n < bufSize s.params b ∧ t = setBuf b s (memWrite (bufOf b s) n v)) := by
  unfold hostAccess at h
  split at h
  · rename_i o ho
    injection h with h
    obtain ⟨r, rfl⟩ | ⟨r, v, rfl⟩ | ⟨b, n, -, rfl⟩ | ⟨b, n, v, hb, hn, rfl⟩ := selectAccess_ok ho
    · exact .inl ⟨_, h.symm⟩
    · exact .inr (.inl ⟨r, v, h.symm⟩)
    · exact .inl ⟨_, h.symm⟩
    · exact .inr (.inr ⟨b, n, v, hb, hn, h.symm⟩)
  · simp at h

/-- A STATUS read answers STATUS in every state (R51). -/
theorem hostAccess_status (s : State) :
    hostAccess (.regRead 32 0x08) s = .next (s.setHostGot (.word s.status :: s.hostGot)) := rfl

theorem isStatusRead_iff (a : HostAccess) : isStatusRead a = true ↔ a = .regRead 32 0x08 := by simp [isStatusRead]

/-- All a HOST turn that answers does: nothing to the block (a value for the HOST, an access taken from its program or
held), or, with BUSY = 0, a register write or a byte of CAR or MIN. -/
theorem hostTurn_next {s t : State} (h : hostTurn s = .next t) :
    (∃ q g hd, t = { s with hostQueue := q, hostGot := g, held := hd }) ∨
    (statusBusy s.status = false ∧ ∃ q hd, (∃ r v, t = writeReg r v { s with hostQueue := q, held := hd }) ∨
      (∃ b n v, b ≠ .mout ∧ n < bufSize s.params b ∧
        t = setBuf b { s with hostQueue := q, held := hd } (memWrite (bufOf b s) n v))) := by
  have access : ∀ {a q hd}, statusBusy s.status = false →
      hostAccess a { s with hostQueue := q, held := hd } = .next t →
      (∃ q g hd, t = { s with hostQueue := q, hostGot := g, held := hd }) ∨
      (statusBusy s.status = false ∧ ∃ q hd, (∃ r v, t = writeReg r v { s with hostQueue := q, held := hd }) ∨
        (∃ b n v, b ≠ .mout ∧ n < bufSize s.params b ∧
          t = setBuf b { s with hostQueue := q, held := hd } (memWrite (bufOf b s) n v))) := by
    intro a q hd hb ha
    obtain ⟨v, rfl⟩ | ⟨r, v, rfl⟩ | ⟨b, n, v, hne, hn, rfl⟩ := hostAccess_next ha
    · exact .inl ⟨q, _, hd, rfl⟩
    · exact .inr ⟨hb, q, hd, .inl ⟨r, v, rfl⟩⟩
    · exact .inr ⟨hb, q, hd, .inr ⟨b, n, v, hne, hn, by cases b <;> rfl⟩⟩
  unfold hostTurn at h
  cases hh : s.held with
  | some a =>
    simp only [hh] at h
    split_ifs at h with hb
    · injection h with h; exact .inl ⟨s.hostQueue, s.hostGot, s.held, h.symm⟩
    · exact access (by simpa using hb) h
  | none =>
    simp only [hh] at h
    cases hq : s.hostQueue with
    | nil =>
      simp only [hq] at h
      injection h with h; exact .inl ⟨s.hostQueue, s.hostGot, s.held, h.symm⟩
    | cons st rest =>
      simp only [hq] at h
      cases st with
      | wait =>
        unfold hostStmt at h
        simp only at h
        split_ifs at h with hb <;> injection h with h
        · exact .inl ⟨s.hostQueue, _, s.held, h.symm⟩
        · exact .inl ⟨rest, _, s.held, h.symm⟩
      | access a =>
        unfold hostStmt at h
        simp only at h
        split_ifs at h with hb
        · injection h with h; exact .inl ⟨rest, s.hostGot, some a, h.symm⟩
        · by_cases hs : statusBusy s.status = true
          · have ha : a = .regRead 32 0x08 := by
              simp only [hs, Bool.true_and, Bool.not_eq_true'] at hb
              exact (isStatusRead_iff a).mp (by simpa using hb)
            subst ha
            rw [hostAccess_status] at h
            injection h with h
            exact .inl ⟨rest, _, s.held, h.symm⟩
          · exact access (q := rest) (hd := s.held) (by simpa using hs) h

end Sys2Proof.Machine
end

