-- ==== Sys2Proof/Laws/PerInstr.lean ====
section
/-! SUPPORT. Per-command laws of the encoding: what stands in each field of a command's word (30_encoding.md R60,
R62). -/

namespace Sys2Proof.Laws.EncodingFields

/-- The fields of the word of a command: its opcode, its bit operand, reserved bits 0; and every command term is well
formed. -/
def Statement (i : Instr) : Prop :=
  i.wf = true ∧ (opField (encode i)).toNat = opcode i ∧ bField (encode i) = bOperand i ∧ rsvField (encode i) = 0

theorem embed : Statement .embed := by unfold Statement; decide

theorem extract : Statement .extract := by unfold Statement; decide

theorem wrbit (b : Bit) : Statement (.wrbit b) := by cases b <;> (unfold Statement; decide)

theorem rdbit : Statement .rdbit := by unfold Statement; decide

end Sys2Proof.Laws.EncodingFields
end

