-- ==== Sys2Proof/Laws/Sequencer.lean ====
section
/-! SUPPORT. What a sequencer step does: one inversion lemma per kind of step, and the frame of every step. -/

namespace Sys2Proof.Machine

/-- All an EMB step that answers does (42_stego.md R111): one slot inside the carrier, or the completion. -/
theorem embStep_next {s t : State} (h : embStep s = .next t) :
    (s.seq.idx < s.seq.lim ∧ s.seq.idx < s.params.cap ∧ s.seq.n ≤ s.params.msgBufBytes ∧
      t = (s.setCar (lsbWrite s.car s.seq.idx (payloadBit (minBytes s s.seq.n) s.seq.idx))).setSeq
        { s.seq with idx := s.seq.idx + 1 }) ∨
    (s.seq.lim ≤ s.seq.idx ∧ t = complete .none false s.seq.tr false (s.setBitsWritten (zext32 s.seq.lim))) := by
  unfold embStep at h
  split_ifs at h with h1 h2 h3
  · injection h with h; exact .inl ⟨h1, by omega, by omega, h.symm⟩
  · injection h with h; exact .inr ⟨by omega, h.symm⟩

/-- All an EXT step that answers does (42_stego.md R114): the completion, a bit shifted in, a group copied, or a stop
group found. -/
theorem extStep_next {s t : State} (h : extStep s = .next t) :
    (s.seq.idx = s.params.cap ∧ t = complete .none false false false (s.setMsgOutLen (zext32 s.seq.outk))) ∨
    (s.seq.idx < s.params.cap ∧ s.seq.accn ≠ 7 ∧
      t = s.setSeq { s.seq with
        idx := s.seq.idx + 1
        acc := shiftIn s.seq.acc (lsbRead s.car s.seq.idx)
        accn := s.seq.accn + 1 }) ∨
    (s.seq.idx < s.params.cap ∧ s.seq.accn = 7 ∧ shiftIn s.seq.acc (lsbRead s.car s.seq.idx) = 0xFF ∧
      t = complete .none false false true
        ((s.setMsgOutLen (zext32 s.seq.outk)).setSeq { s.seq with idx := s.seq.idx + 1 })) ∨
    (s.seq.idx < s.params.cap ∧ s.seq.accn = 7 ∧ shiftIn s.seq.acc (lsbRead s.car s.seq.idx) ≠ 0xFF ∧
      s.seq.outk < s.params.outBufBytes ∧
      t = (s.setMOut (memWrite s.mOut s.seq.outk (shiftIn s.seq.acc (lsbRead s.car s.seq.idx)))).setSeq
        { s.seq with idx := s.seq.idx + 1, outk := s.seq.outk + 1, acc := 0, accn := 0 }) := by
  unfold extStep extBit at h
  split_ifs at h with h1 h2 h3 h4 h5
  · injection h with h; exact .inl ⟨h1, h.symm⟩
  · injection h with h; exact .inr (.inr (.inl ⟨by omega, h3, h4, h.symm⟩))
  · injection h with h; exact .inr (.inr (.inr ⟨by omega, h3, h4, by omega, h.symm⟩))
  · injection h with h; exact .inr (.inl ⟨by omega, h3, h.symm⟩)

/-- All an EMBED start does (42_stego.md R110). -/
theorem embedStart_cases (s : State) :
    (s.params.msgBufBytes < msgLen s ∧ embedStart s = raiseError .msgLenRange (s.setBitsWritten 0)) ∨
    (msgLen s ≤ s.params.msgBufBytes ∧ s.params.cap < payloadLen (msgLen s) ∧ policyFail s = true ∧
      embedStart s = raiseError .capacityExceeded (s.setBitsWritten 0)) ∨
    (msgLen s ≤ s.params.msgBufBytes ∧ ¬ (s.params.cap < payloadLen (msgLen s) ∧ policyFail s = true) ∧
      embedStart s = s.setSeq { s.seq with
        n := msgLen s
        lim := min (payloadLen (msgLen s)) s.params.cap
        tr := decide (s.params.cap < payloadLen (msgLen s))
        idx := 0
        mode := .emb }) := by
  unfold embedStart
  split_ifs with h1 h2
  · exact .inl ⟨h1, rfl⟩
  · simp only [Bool.and_eq_true, decide_eq_true_eq] at h2
    exact .inr (.inl ⟨by omega, h2.1, h2.2, rfl⟩)
  · simp only [Bool.and_eq_true, decide_eq_true_eq] at h2
    exact .inr (.inr ⟨by omega, h2, rfl⟩)

/-- The decode step on a word that decodes to a command. -/
theorem decodeStep_command {s : State} {i : Instr} (h : decode s.seq.cw = .command i) :
    decodeStep s = startCommand i s := by
  unfold decodeStep
  rw [h]

/-- The decode step on an ILLEGAL word (30_encoding.md R64). -/
theorem decodeStep_illegal {s : State} {why : IllegalWord} (h : decode s.seq.cw = .illegal why) :
    decodeStep s = .next (raiseError .illegalCmd s) := by
  unfold decodeStep
  rw [h]

/-- The decode step always answers. -/
theorem decodeStep_answers (s : State) : ∃ t, decodeStep s = .next t ∧ SeqFrame s t := by
  cases hd : decode s.seq.cw with
  | illegal why => exact ⟨_, decodeStep_illegal hd, (SeqFrame.refl s).complete _ _ _ _⟩
  | command i =>
    rw [decodeStep_command hd]
    cases i with
    | embed =>
      refine ⟨_, rfl, ?_⟩
      obtain ⟨-, h⟩ | ⟨-, -, -, h⟩ | ⟨-, -, h⟩ := embedStart_cases s <;> rw [h]
      · exact ((SeqFrame.refl s).setBitsWritten _).complete _ _ _ _
      · exact ((SeqFrame.refl s).setBitsWritten _).complete _ _ _ _
      · exact (SeqFrame.refl s).setSeq _
    | extract => exact ⟨_, rfl, (SeqFrame.refl s).setSeq _⟩
    | wrbit b =>
      obtain ⟨t, _, _, _, _, h, -, -, hf⟩ := exec_completes (.wrbit b) s
      exact ⟨t, h, hf⟩
    | rdbit =>
      obtain ⟨t, _, _, _, _, h, -, -, hf⟩ := exec_completes .rdbit s
      exact ⟨t, h, hf⟩

/-- No sequencer step changes what belongs to the HOST. -/
theorem seqStep_frame {s t : State} (h : seqStep s = .next t) : SeqFrame s t := by
  unfold seqStep at h
  split at h
  · injection h with h; subst h; exact SeqFrame.refl s
  · obtain ⟨u, hu, hf⟩ := decodeStep_answers s
    rw [hu] at h; injection h with h; subst h; exact hf
  · obtain ⟨-, -, -, rfl⟩ | ⟨-, rfl⟩ := embStep_next h
    · exact ((SeqFrame.refl s).setCar _).setSeq _
    · exact ((SeqFrame.refl s).setBitsWritten _).complete _ _ _ _
  · obtain ⟨-, rfl⟩ | ⟨-, -, rfl⟩ | ⟨-, -, -, rfl⟩ | ⟨-, -, -, -, rfl⟩ := extStep_next h
    · exact ((SeqFrame.refl s).setMsgOutLen _).complete _ _ _ _
    · exact (SeqFrame.refl s).setSeq _
    · exact (((SeqFrame.refl s).setMsgOutLen _).setSeq _).complete _ _ _ _
    · exact ((SeqFrame.refl s).setMOut _).setSeq _

/-- A sequencer step is never refused: only the host port refuses. -/
theorem seqStep_not_refused (s : State) (r : Refusal) : seqStep s ≠ .refused r := by
  unfold seqStep
  split
  · simp
  · obtain ⟨t, h, -⟩ := decodeStep_answers s; simp [h]
  · unfold embStep; split_ifs <;> simp
  · unfold extStep extBit; split_ifs <;> simp

/-- The next state of an outcome changed by `f`, a stop as it is. -/
def Result.map (f : State → State) : Result → Result
  | .next t => .next (f t)
  | .fault r => .fault r
  | .refused r => .refused r

/-- A sequencer step neither reads nor writes the schedule. -/
theorem seqStep_setTurns (s : State) (ts : List Turn) :
    seqStep (s.setTurns ts) = Result.map (State.setTurns · ts) (seqStep s) := by
  cases hm : s.seq.mode with
  | idle => simp [seqStep, hm, Result.map]
  | dec =>
    simp only [seqStep, hm, setTurns_seq, decodeStep]
    cases decode s.seq.cw with
    | illegal w => rfl
    | command i =>
      cases i with
      | embed =>
        have e1 : msgLen (s.setTurns ts) = msgLen s := rfl
        have e2 : policyFail (s.setTurns ts) = policyFail s := rfl
        simp only [startCommand, embedStart, e1, e2, setTurns_params]
        by_cases h1 : s.params.msgBufBytes < msgLen s
        · simp only [h1, if_true]; rfl
        · by_cases h2 : (decide (s.params.cap < payloadLen (msgLen s)) && policyFail s) = true
          · simp only [h1, h2, if_true, if_false]; rfl
          · simp only [h1, h2, if_false]; rfl
      | extract => rfl
      | wrbit b =>
        have e1 : slotValid (s.setTurns ts) = slotValid s := rfl
        simp only [startCommand, execWrbit, e1]
        by_cases h1 : slotValid s = true
        · simp only [h1, if_true]; rfl
        · simp only [h1]; rfl
      | rdbit =>
        have e1 : slotValid (s.setTurns ts) = slotValid s := rfl
        simp only [startCommand, execRdbit, e1]
        by_cases h1 : slotValid s = true
        · simp only [h1, if_true]; rfl
        · simp only [h1]; rfl
  | emb => simp only [seqStep, hm, setTurns_seq, embStep, setTurns_params]; split_ifs <;> rfl
  | ext => simp only [seqStep, hm, setTurns_seq, extStep, extBit, setTurns_params, setTurns_car]; split_ifs <;> rfl

/-! ## A reset inside a step (70_reset_and_hazards.md R141) -/

/-- A step that answers leaves its writes to CAR and MOUT, and nothing else of it. -/
theorem abandonStep_of_next {s t : State} (h : seqStep s = .next t) :
    abandonStep s = { s with car := t.car, mOut := t.mOut } := by rw [abandonStep, h]; rfl

/-- A step that stops leaves nothing. -/
theorem abandonStep_of_fault {s : State} {r : Fault} (h : seqStep s = .fault r) : abandonStep s = s := by
  rw [abandonStep, h]

/-- All an abandoned step can leave: the buffers of the step it was, or the machine as it is. -/
theorem abandonStep_cases (s : State) :
    (∃ t, seqStep s = .next t ∧ abandonStep s = { s with car := t.car, mOut := t.mOut }) ∨ abandonStep s = s := by
  cases h : seqStep s with
  | next t => exact .inl ⟨t, rfl, abandonStep_of_next h⟩
  | fault r => exact .inr (abandonStep_of_fault h)
  | refused r => exact absurd h (seqStep_not_refused s r)

/-- An abandoned step changes nothing but CAR and MOUT. -/
theorem abandonStep_eq (s : State) :
    abandonStep s = { s with car := (abandonStep s).car, mOut := (abandonStep s).mOut } := by
  obtain ⟨t, -, h⟩ | h := abandonStep_cases s <;> rw [h]

/-- There is no step to abandon between commands. -/
theorem abandonStep_idle {s : State} (hm : s.seq.mode = .idle) : abandonStep s = s :=
  abandonStep_of_next (t := s) (by simp [seqStep, hm])

/-- One more sequencer step of a run. -/
theorem seqRun_succ {k : Nat} {s t : State} (hm : s.seq.mode ≠ .idle) (h : seqStep s = .next t) :
    seqRun (k + 1) s = seqRun k t := by
  simp only [seqRun, hm, if_false, h]

/-- A run of an idle sequencer stays. -/
@[simp] theorem seqRun_idle (k : Nat) {s : State} (hm : s.seq.mode = .idle) : seqRun k s = .next s := by
  cases k <;> simp [seqRun, hm]

end Sys2Proof.Machine
end

