-- ==== Sys2Proof/Laws/Step.lean ====
section
/-! SUPPORT. What one step of the machine can be, said once. -/

namespace Sys2Proof.Machine

/-- One step that answers: the HOST's turn, the executing command run whole, a sequencer step, or a reset. -/
theorem step_next {s t : State} (h : step s = .next t) :
    (mover s = .host ∧ ∃ ts, hostTurn { s with turns := ts } = .next t) ∨
    (mover s = .seq ∧ s.turns = [] ∧ s.seq.mode = .dec ∧ ∃ i, decode s.seq.cw = .command i ∧ exec i s = .next t) ∨
    (mover s = .seq ∧ s.turns = [] ∧ s.seq.mode = .dec ∧ (∃ w, decode s.seq.cw = .illegal w) ∧
      t = raiseError .illegalCmd s) ∨
    (mover s = .seq ∧ ∃ ts, seqStep { s with turns := ts } = .next t) ∨
    (mover s = .reset ∧ ∃ ts, s.turns = .reset :: ts ∧ t = resetOp { s with turns := ts }) ∨
    (mover s = .reset ∧ ∃ ts, s.turns = .resetInStep :: ts ∧ t = resetOp (abandonStep { s with turns := ts })) := by
  unfold step at h
  cases ht : s.turns with
  | nil =>
    have hs : s = { s with turns := [] } := by cases s; simp_all
    simp only [ht] at h
    unfold commandTurn at h
    cases hm : s.seq.mode with
    | idle =>
      simp only [hm] at h
      exact .inl ⟨by simp [mover, ht, hm], [], by rwa [← hs]⟩
    | dec =>
      simp only [hm] at h
      have hv : mover s = .seq := by simp [mover, ht, hm]
      cases hd : decode s.seq.cw with
      | command i => simp only [hd] at h; exact .inr (.inl ⟨hv, rfl, rfl, i, rfl, h⟩)
      | illegal w =>
        simp only [hd] at h; injection h with h
        exact .inr (.inr (.inl ⟨hv, rfl, rfl, ⟨w, rfl⟩, h.symm⟩))
    | emb =>
      simp only [hm] at h
      exact .inr (.inr (.inr (.inl ⟨by simp [mover, ht, hm], [], by rwa [← hs]⟩)))
    | ext =>
      simp only [hm] at h
      exact .inr (.inr (.inr (.inl ⟨by simp [mover, ht, hm], [], by rwa [← hs]⟩)))
  | cons x ts =>
    simp only [ht] at h
    cases x with
    | host => exact .inl ⟨by simp [mover, ht], ts, h⟩
    | seq => exact .inr (.inr (.inr (.inl ⟨by simp [mover, ht], ts, h⟩)))
    | reset =>
      injection h with h
      exact .inr (.inr (.inr (.inr (.inl ⟨by simp [mover, ht], ts, rfl, h.symm⟩))))
    | resetInStep =>
      injection h with h
      exact .inr (.inr (.inr (.inr (.inr ⟨by simp [mover, ht], ts, rfl, h.symm⟩))))

/-- A register write of the HOST changes the HOST-written registers, or issues a command, and nothing else. -/
theorem writeReg_cases (r : HostReg) (v : Word) (s : State) :
    writeReg r v s = issue v s ∨ writeReg r v s = s.setSlot v ∨ writeReg r v s = s.setConfig (v &&& 1) ∨
    writeReg r v s = s.setMsgInLen v ∨ writeReg r v s = s := by
  cases r
  case cmd => exact .inl rfl
  case slot => exact .inr (.inl rfl)
  case config => exact .inr (.inr (.inl rfl))
  case msgInLen => exact .inr (.inr (.inr (.inl rfl)))
  all_goals exact .inr (.inr (.inr (.inr rfl)))

/-- Every command writes only bit 0 of samples. -/
theorem exec_half {i : Instr} {s t : State} (h : exec i s = .next t) (a : Nat) :
    (memRead .car t.car a).toNat / 2 = (memRead .car s.car a).toNat / 2 := by
  obtain hc | ⟨b, -, -, hc⟩ | ⟨-, hc⟩ := exec_car h <;> rw [hc]
  · rw [memRead_lsbWrite]
    split_ifs with e
    · rw [withLsb_half, e]
    · rfl
  · rw [memRead_embedSlots]
    split_ifs
    · rw [withLsb_half]
    · rfl

end Sys2Proof.Machine
end

