-- ==== Sys2Proof/Tests/Slice0.lean ====
section
/-! SUPPORT. The model's own tests. Expected values are those of 95_test_vectors.md or are worked out by hand from the
rule named. The second half shows, for each statement with hypotheses, concrete data that meet them. -/

namespace Sys2Proof.Tests

open Sys2Proof Sys2Proof.Machine

set_option Elab.async false

/-! ## Helpers -/

/-- The canonical buffer in which the bytes from address `a` on have been written. -/
def cells : Nat → List Byte → Memory
  | _, [] => []
  | a, v :: vs => (a, v) :: cells (a + 1) vs

/-- A machine between commands, with the carrier and the message loaded. -/
def start (rows cols : Nat) (car msg : List Byte) (n : Word) (slot config : Word) : State :=
  { State.reset with
    params := { rows := rows, cols := cols, msgBufBytes := 16 }
    car := cells 0 car
    mIn := cells 0 msg
    msgInLen := n
    slot := slot
    config := config }

/-- The state a step answers, the reset state where it answers none. -/
def after : Host.Outcome State Fault Refusal → State
  | .next t => t
  | .fault _ => State.reset
  | .refused _ => State.reset

/-- A step answers the state `t`, as a check that evaluates. -/
def answers (r : Host.Outcome State Fault Refusal) (t : State) : Bool :=
  match r with
  | .next u => decide (u = t)
  | .fault _ => false
  | .refused _ => false

theorem next_of_answers {r : Host.Outcome State Fault Refusal} {t : State} (h : answers r t = true) : r = .next t := by
  cases r with
  | next u => exact congrArg _ (of_decide_eq_true h)
  | fault _ => cases h
  | refused _ => cases h

/-- The first `k` bytes of a buffer. -/
def bytes (b : Buffer) (m : Memory) (k : Nat) : List Byte := (List.range k).map (memRead b m)

/-- The same carrier of `k` equal samples. -/
def flat (k : Nat) (v : Byte) : List Byte := List.replicate k v

/-! ## Well-formedness -/

theorem test_wf_params : ({ rows := 1, cols := 8, msgBufBytes := 16 } : Params).wf = true := by decide

theorem test_wf_cap_too_big : ({ rows := 65536, cols := 65536, msgBufBytes := 16 } : Params).wf = false := by decide

theorem test_wf_buffer_too_big : ({ rows := 1, cols := 8, msgBufBytes := 4294967296 } : Params).wf = false := by decide

theorem test_wf_rows_too_big : ({ rows := 4294967296, cols := 0, msgBufBytes := 16 } : Params).wf = false := by decide

theorem test_wf_cols_too_big : ({ rows := 0, cols := 4294967296, msgBufBytes := 16 } : Params).wf = false := by decide

theorem test_wf_commands : (Instr.wrbit true).wf = true ∧ Instr.embed.wf = true ∧ Instr.extract.wf = true
    ∧ Instr.rdbit.wf = true := by decide

/-! ## Decode: words written out from the format of R60, RSV B OP -/

theorem test_decode_embed : decode 0b000000000000000000000000000_0_0001#32 = .command .embed := by decide

theorem test_decode_extract : decode 0b000000000000000000000000000_0_0010#32 = .command .extract := by decide

theorem test_decode_wrbit_0 : decode 0b000000000000000000000000000_0_0011#32 = .command (.wrbit false) := by decide

theorem test_decode_wrbit_1 : decode 0b000000000000000000000000000_1_0011#32 = .command (.wrbit true) := by decide

theorem test_decode_rdbit : decode 0b000000000000000000000000000_0_0100#32 = .command .rdbit := by decide

/-- The ILLEGAL words of 95_test_vectors.md section 3. -/
theorem test_decode_illegal :
    [0x00000000#32, 0x00000005, 0x0000000F, 0x00000011, 0x00000012, 0x00000014, 0x00000010, 0x00000020, 0x00000023,
      0x00000033, 0x80000001].all (fun w => match decode w with | .illegal _ => true | .command _ => false) = true := by
  decide

theorem test_table_words : decodeTableWord 32 0x13 = some (.wrbit true) ∧ decodeTableWord 32 0x14 = none
    ∧ decodeTableWord 64 0x100000001 = none ∧ decodeTableWord 32 0x04 = some .rdbit := by decide

/-! ## BitCodec, slots, bit plane (95_test_vectors.md sections 2 and 4) -/

theorem test_toBits_msb_first :
    toBits [0xA5] = [true, false, true, false, false, true, false, true] := by decide

theorem test_term_bytes : fromBits term = some [0xFF, 0xFE] ∧ fromBits (term.take 7) = none := by decide

theorem test_index : indexOf ⟨2, 3, 16⟩ 8 = ⟨0, 2, 2⟩ ∧ indexOf ⟨2, 3, 16⟩ 9 = ⟨1, 0, 0⟩
    ∧ slotOf ⟨2, 3, 16⟩ ⟨1, 2, 2⟩ = 17 := by decide

theorem test_withLsb : withLsb 0x00 true = 0x01 ∧ withLsb 0xFF false = 0xFE ∧ withLsb 0x80 true = 0x81
    ∧ withLsb 0x81 true = 0x81 ∧ withLsb 0x7E false = 0x7E ∧ withLsb 0x37 false = 0x36 := by decide

/-! ## One step of each command -/

/-- V-S1: WRBIT 1 on slot 5. -/
theorem test_wrbit_sets :
    let t := after (step ((start 1 8 (flat 24 0x80) [] 0 5 0).withFetchWord 32 0x13))
    bytes .car t.car 7 = [0x80, 0x80, 0x80, 0x80, 0x80, 0x81, 0x80] ∧ t.status = 0x00000002 := by decide +kernel

/-- V-S6: WRBIT on slot 24 of 24. -/
theorem test_wrbit_out_of_range :
    let s := start 1 8 (flat 24 0x80) [] 0 24 0
    let t := after (step (s.withFetchWord 32 0x13))
    t.car = s.car ∧ t.status = 0x00000026 := by decide +kernel

/-- Section 5: RDBIT on a sample 37. -/
theorem test_rdbit_one : (after (step ((start 1 1 [0x80, 0x80, 0x37] [] 0 2 0).withFetchWord 32 0x04))).status
    = 0x00000102 := by decide +kernel

/-- Section 5: RDBIT with CAP = 0. -/
theorem test_rdbit_no_slot : (after (step ((start 0 5 [] [] 0 0 0).withFetchWord 32 0x04))).status
    = 0x00000026 := by decide +kernel

/-- V-E2: EMBED "Hi" in 36 samples. -/
theorem test_embed_hi :
    let t := after (step ((start 2 6 (flat 36 0x80) [0x48, 0x69] 2 0 0).withFetchWord 32 0x01))
    bytes .car t.car 36 = [0x80, 0x81, 0x80, 0x80, 0x81, 0x80, 0x80, 0x80, 0x80, 0x81, 0x81, 0x80, 0x81, 0x80, 0x80, 0x81,
        0x81, 0x81, 0x81, 0x81, 0x81, 0x81, 0x81, 0x81, 0x81, 0x81, 0x81, 0x81, 0x81, 0x81, 0x81, 0x80, 0x80, 0x80,
        0x80, 0x80]
      ∧ t.bitsWritten = 32 ∧ t.status = 0x00000002 := by decide +kernel

/-- V-E6b: a message too long for the buffer and for the carrier, policy FAIL. -/
theorem test_embed_priority :
    let t := after (step ((start 1 8 (flat 24 0) [] 17 0 1).withFetchWord 32 0x01))
    t.status = 0x00000046 ∧ bytes .car t.car 24 = flat 24 0 ∧ t.bitsWritten = 0 := by decide +kernel

/-- V-X4: EXTRACT ignores bits 7:1 and stops at a stop group. -/
theorem test_extract_stops :
    let t := after (step ((start 1 6 [0x10, 0x11, 0x10, 0x10, 0x11, 0x10, 0x10, 0x10, 0x11, 0x11, 0x11, 0x11, 0x11, 0x11,
      0x11, 0x11, 0x33, 0x31] [] 0 0 0).withFetchWord 32 0x02))
    memRead .mout t.mOut 0 = 0x48 ∧ t.msgOutLen = 1 ∧ t.status = 0x00000402 := by decide +kernel

/-- V-X3: eight 1 bits across two groups are no stop group. -/
theorem test_extract_straddling_ones :
    let t := after (step ((start 1 6 [0xF0, 0xF0, 0xF0, 0xF0, 0xF1, 0xF1, 0xF1, 0xF1, 0xF1, 0xF1, 0xF1, 0xF1, 0xF0, 0xF0,
      0xF0, 0xF0, 0x20, 0x20] [] 0 0 0).withFetchWord 32 0x02))
    bytes .mout t.mOut 2 = [0x0F, 0xF0] ∧ t.msgOutLen = 2 ∧ t.status = 0x00000002 := by decide +kernel

/-- V-S9: an ILLEGAL word. -/
theorem test_illegal_word :
    let t := after (step ((start 1 8 (flat 24 0x80) [] 0 0 0).withFetchWord 32 0x23))
    t.status = 0x00000016 ∧ bytes .car t.car 24 = flat 24 0x80 := by decide +kernel

/-! ## Host port and assembly -/

/-- Program P4, statement 1. -/
theorem test_setmsg : assembleLine "SETMSG \"A\\xFFB\"".toList =
    some [.access (.bufWrite .min 8 0 0x41), .access (.bufWrite .min 8 1 0xFF), .access (.bufWrite .min 8 2 0x42),
      .access (.regWrite 32 0x1C 3)] := by decide +kernel

/-- Program P2, statement 5: a register written as R69 expands it. -/
theorem test_wrbit_line : assembleLine "WRBIT 23, 1".toList =
    some [.access (.regWrite 32 0x04 0x17), .access (.regWrite 32 0x00 0x13)] := by decide +kernel

/-- R55: byte CAP of CAR does not exist, MOUT is not writable, REG+2 is misaligned, REG+0x2C is unmapped. -/
theorem test_bus_errors :
    let s := start 1 8 [] [] 0 0 0
    hostAccess (.bufRead .car 8 24) s = .refused (.busError .outOfRange)
      ∧ hostAccess (.bufWrite .mout 8 0 1) s = .refused (.busError .moutWrite)
      ∧ hostAccess (.regRead 32 2) s = .refused (.busError .misaligned)
      ∧ hostAccess (.regRead 32 0x2C) s = .refused (.busError .unmapped)
      ∧ hostAccess (.regRead 8 0x08) s = .refused (.busError .wrongWidth) := ⟨rfl, rfl, rfl, rfl, rfl⟩

/-- A WRBIT issued by the HOST with sequencer turns: a read of CAR is held meanwhile and gives the new byte. -/
theorem test_hold :
    let s := { start 1 8 (flat 24 0x80) [] 0 5 0 with
      hostQueue := [.access (.regWrite 32 0x00 0x13), .access (.bufRead .car 8 5)]
      turns := [.host, .host, .seq, .host] }
    (after (runFor 2 s)).held = some (.bufRead .car 8 5)
      ∧ (after (runFor 4 s)).hostGot = [.byte 0x81] ∧ (after (runFor 4 s)).status = 0x00000002 := by decide +kernel

/-! ## Witnesses: data that meet the hypotheses of each statement -/

/-- The parts of the invariant that a concrete state decides. -/
def invOk (s : State) : Bool :=
  s.params.wf
    && (decide (s.seq.mode ≠ .idle ∧ s.status = busyStatus)
      || decide (s.seq.mode = .idle ∧ (s.status = 0 ∨ s.status ∈ [completeStatus .none false false false,
        completeStatus .none false true false])))
    && decide (s.config &&& 1 = s.config)
    && bufWf .car s && bufWf .min s && bufWf .mout s
    && decide (s.seq.idx ≤ s.params.cap ∧ s.seq.lim ≤ s.params.cap ∧ s.seq.n ≤ s.params.msgBufBytes ∧ s.seq.accn ≤ 7
      ∧ s.seq.outk ≤ s.params.outBufBytes)
    && decide (s.seq.mode = .emb → s.seq.idx ≤ s.seq.lim ∧ s.seq.lim = min (payloadLen s.seq.n) s.params.cap
      ∧ s.seq.tr = decide (s.params.cap < payloadLen s.seq.n))
    && decide (s.seq.mode = .ext → s.seq.accn = s.seq.idx % 8 ∧ s.seq.outk = s.seq.idx / 8
      ∧ s.seq.acc.toNat < 2 ^ s.seq.accn)
    && decide (s.msgOutLen.toNat ≤ s.params.outBufBytes ∧ s.bitsWritten.toNat ≤ s.params.cap)

theorem inv_of_ok {s : State} (h : invOk s = true) : MachineInv s := by
  simp only [invOk, Bool.and_eq_true, Bool.or_eq_true, decide_eq_true_eq] at h
  obtain ⟨⟨⟨⟨⟨⟨⟨⟨⟨p, st⟩, c⟩, b1⟩, b2⟩, b3⟩, r⟩, e⟩, x⟩, o⟩ := h
  refine ⟨p, ?_, c, fun b => by cases b <;> assumption, r, e, x, o⟩
  obtain h | ⟨h, k | k⟩ := st
  · exact .inl h
  · exact .inr ⟨h, .inl k⟩
  · simp only [List.mem_cons, List.not_mem_nil, or_false] at k
    obtain k | k := k
    · exact .inr ⟨h, .inr ⟨_, _, _, _, k⟩⟩
    · exact .inr ⟨h, .inr ⟨_, _, _, _, k⟩⟩

/-- V-S: 24 samples 80, slot 23, the last one. -/
def wS : State := start 1 8 (flat 24 0x80) [] 0 23 0

/-- The same with slot 24, which does not exist. -/
def wS24 : State := start 1 8 (flat 24 0x80) [] 0 24 0

/-- V-E1: one byte that fits 24 slots exactly. -/
def wE1 : State := start 1 8 (flat 24 0) [0x41] 1 0 0

/-- V-E4 and V-E5: four bytes for 24 slots, under each policy. -/
def wE4 : State := start 1 8 (flat 24 0) [0x41, 0x42, 0x43, 0x44] 4 0 0
def wE5 : State := start 1 8 (flat 24 0) [0x41, 0x42, 0x43, 0x44] 4 0 1

/-- V-E6: a message longer than its buffer. -/
def wE6 : State := start 1 8 (flat 24 0) [] 17 0 0

/-- V-E8: a message that starts with FF. -/
def wE8 : State := start 2 6 (flat 36 0) [0xFF, 0x41] 2 0 0

/-- V-E13 and V-E14: truncation with and without room for the stop group. -/
def wE13 : State := start 1 5 (flat 15 0) [0x41] 1 0 0
def wE14 : State := start 1 6 (flat 18 0) [0x41] 1 0 0

/-- V-E3, V-E9 and V-E9b: the empty message in 18 slots, and in 12 under each policy. -/
def wE3 : State := start 2 3 (flat 18 0x55) [] 0 0 0
def wE9 : State := start 1 4 (flat 12 0xFE) [] 0 0 0
def wE9b : State := start 1 4 (flat 12 0xFE) [] 0 0 1

/-- A machine whose command word `w` has just been issued. -/
def issued (w : Word) (s : State) : State := issue w s

/-- The machine of V-E1 in the middle of EMBED and of EXTRACT: the start and `k` slots done. -/
def midEmbed (k : Nat) : State := after (seqRun (k + 1) (issued 1 wE1))
def midExtract (k : Nat) : State := after (seqRun (k + 1) (issued 2 wE1))

theorem witness_invariant : MachineInv State.reset ∧ MachineInv wS ∧ MachineInv wS24 ∧ MachineInv wE1 ∧ MachineInv wE4
    ∧ MachineInv wE5 ∧ MachineInv wE6 ∧ MachineInv wE8 ∧ MachineInv wE13 ∧ MachineInv wE14 ∧ MachineInv wE3
    ∧ MachineInv wE9 ∧ MachineInv wE9b := by
  refine ⟨?_, ?_, ?_, ?_, ?_, ?_, ?_, ?_, ?_, ?_, ?_, ?_, ?_⟩ <;> exact inv_of_ok (by decide +kernel)

/-- The invariant while a command executes: after the issue, in the middle, and with every slot done. -/
theorem witness_invariant_busy : MachineInv (issued 1 wE1) ∧ MachineInv (midEmbed 7) ∧ MachineInv (midEmbed 24)
    ∧ MachineInv (midExtract 7) ∧ MachineInv (midExtract 24) ∧ (midEmbed 7).seq.mode = .emb
    ∧ (midEmbed 24).seq.mode = .emb ∧ (midExtract 7).seq.mode = .ext ∧ (midExtract 24).seq.mode = .ext := by
  refine ⟨?_, ?_, ?_, ?_, ?_, by decide +kernel, by decide +kernel, by decide +kernel, by decide +kernel⟩ <;>
    exact inv_of_ok (by decide +kernel)

/-- The invariant after a command, where the statements about a pair of commands take their second state. -/
theorem witness_invariant_after : MachineInv (after (exec .embed wE1)) ∧ MachineInv (after (exec .embed wE4))
    ∧ MachineInv (after (exec .embed wE8)) ∧ MachineInv (after (exec .embed wE13))
    ∧ MachineInv (after (exec .embed wE14)) ∧ MachineInv (after (exec .embed wE3))
    ∧ MachineInv (after (exec .embed wE9)) := by
  refine ⟨?_, ?_, ?_, ?_, ?_, ?_, ?_⟩ <;> exact inv_of_ok (by decide +kernel)

theorem witness_DecodeAcceptsExactlyTheFiveWords :
    (0x00000005 : Word) ∉ [(0x00000001 : Word), 0x00000002, 0x00000003, 0x00000013, 0x00000004]
      ∧ (0xFFFFFFFF : Word) ∉ [(0x00000001 : Word), 0x00000002, 0x00000003, 0x00000013, 0x00000004] := by decide

theorem witness_DecodeInvertsEncode : (Instr.wrbit true).wf = true ∧ decode 0x13 = .command (.wrbit true) := by decide

theorem witness_ToBitsIsMsbFirst : 7 < 8 * [(0xA5 : Byte)].length := by decide

theorem witness_FromBitsDecodesWholeGroups :
    (term.take 7).length % 8 ≠ 0 ∧ term.length % 8 = 0 ∧ ([] : List Bit).length % 8 = 0 := by decide

theorem witness_PayloadBitAtSlot : 15 < 8 * ([] : List Byte).length + 16 ∧ 23 < 8 * [(0x41 : Byte)].length + 16 := by
  decide

theorem witness_TerminatorBytesAndStopGroup :
    1 < [(0x41 : Byte), 0xFF].length ∧ [(0x41 : Byte), 0xFF].getD 1 0 = 0xFF ∧ 7 < 8 := by decide

theorem witness_SlotIndexerIsABijection :
    17 < (⟨2, 3, 16⟩ : Params).cap ∧ (⟨1, 2, 2⟩ : Coord).inCarrier ⟨2, 3, 16⟩ = true
      ∧ 18 ≤ (⟨2, 3, 16⟩ : Params).cap ∧ 17 < 18 ∧ (⟨0, 5, 16⟩ : Params).cap = 0 := by decide

theorem witness_LsbWriteSetsOneBit : (5 : Nat) ≠ 6 ∧ Memory.wf wS.car = true ∧ memGet wS.car 23 ≠ none
    ∧ Memory.wf [] = true := by decide +kernel

theorem witness_CanonicalBuffersAreEqualData :
    Memory.wf [(3, 0x37)] = true ∧ ∀ a, memGet [(3, 0x37)] a = memGet [(3, 0x37)] a := ⟨by decide, fun _ => rfl⟩

/-- A written byte and an unwritten one. -/
theorem witness_UnwrittenBytesAreFree :
    memGet [(3, 0x37)] 3 = some 0x37 ∧ memGet [(3, 0x37)] 4 = none ∧ (4 : Nat) ≠ 3 := by decide

theorem witness_HostByteWriteReadsBack : Buffer.car ≠ .mout ∧ 23 < bufSize wS.params .car
    ∧ Buffer.min ≠ .mout ∧ 15 < bufSize wS.params .min :=
  by decide +kernel

/-- The HOST's queue `q` at machine `s`, with turns. -/
def queued (q : List HostStmt) (ts : List Turn) (s : State) : State := { s with hostQueue := q, turns := ts }

theorem witness_CommandIssue :
    statusBusy wS.status = false := by decide +kernel

theorem witness_HostAccessesTakeEffectInOrder :
    let s := queued [.access (.regWrite 32 0x00 0x13)] [] wS
    let t := wS.setHeld (some (.bufRead .car 8 23))
    (s.turns = [] ∧ s.seq.mode = .idle ∧ statusBusy s.status = false ∧ s.held = none
        ∧ s.hostQueue = .access (.regWrite 32 0x00 0x13) :: [])
      ∧ t.turns = [] ∧ t.seq.mode = .idle ∧ statusBusy t.status = false ∧ t.held = some (.bufRead .car 8 23) := by
  decide +kernel

/-- Each clause: an access held, a STATUS read, a held access waiting, a held access taking effect. -/
theorem witness_AccessesAreHeldWhileBusy :
    let s := queued [.access (.bufRead .car 8 0)] [.host] (midEmbed 7)
    let r := queued [.access (.regRead 32 0x08)] [.host] (midEmbed 7)
    (s.turns = .host :: [] ∧ statusBusy s.status = true ∧ s.held = none
        ∧ HostAccess.bufRead .car 8 0 ≠ .regRead 32 0x08)
      ∧ (r.turns = .host :: [] ∧ statusBusy r.status = true ∧ r.held = none)
      ∧ (statusBusy (s.setHeld (some (.bufRead .car 8 0))).status = true)
      ∧ (statusBusy (queued [] [.host] (wS.setHeld (some (.bufRead .car 8 23)))).status = false) := by decide +kernel

theorem witness_HostSeesNoPartialEffect :
    let s := queued [.access (.regRead 32 0x08)] [.host] (midEmbed 7)
    MachineInv s ∧ s.seq.mode ≠ .idle ∧ s.turns = .host :: [] := by
  refine ⟨inv_of_ok ?_, ?_, ?_⟩ <;> decide +kernel

theorem witness_WaitPollsStatus :
    let s := queued [.wait] [.host] (midEmbed 7)
    let t := queued [.wait] [.host] wS
    (s.turns = .host :: [] ∧ s.held = none ∧ s.hostQueue = .wait :: [] ∧ statusBusy s.status = true)
      ∧ (t.turns = .host :: [] ∧ t.held = none ∧ t.hostQueue = .wait :: [] ∧ statusBusy t.status = false) := by
  decide +kernel

/-- A bus error of every kind, and the last register and byte that are none. -/
theorem witness_BusErrorsAreRefused :
    isBusError wS.params (.regRead 31 0x08) ∧ isBusError wS.params (.regWrite 32 0x27 0)
      ∧ isBusError wS.params (.regRead 32 0x2C) ∧ isBusError wS.params (.bufRead .car 8 24)
      ∧ isBusError wS.params (.bufRead .mout 8 3) ∧ isBusError wS.params (.bufWrite .mout 8 0 0)
      ∧ ¬ isBusError wS.params (.regRead 32 0x28) ∧ ¬ isBusError wS.params (.bufRead .car 8 23)
      ∧ ¬ isBusError wS.params (.bufWrite .min 8 15 0) := by
  unfold isBusError; decide +kernel

theorem witness_HostReadsReturnTheValueHeld :
    23 < wS.params.cap ∧ 15 < wS.params.msgBufBytes ∧ 2 < wS.params.cap / 8 := by decide +kernel

theorem witness_ReadOnlyRegistersIgnoreWrites : HostReg.status ∈ readOnlyRegs ∧ HostReg.msgBufSize ∈ readOnlyRegs := by
  decide

theorem witness_ParameterRegistersAreConstant : step State.reset = .next State.reset := rfl

theorem witness_CompleteWritesStatus :
    (wS.setHeld (some (.bufRead .car 8 23))).held = some (.bufRead .car 8 23) := by decide +kernel

theorem witness_IllegalWordCompletesAtOnce :
    let s := issued 0x23 wS
    s.seq.mode = .dec ∧ rsvField s.seq.cw ≠ 0
      ∧ opField (issued 0x05 wS).seq.cw ∉ [0x1, 0x2, 0x3, 0x4]
      ∧ bField (issued 0x14 wS).seq.cw = true ∧ opField (issued 0x14 wS).seq.cw ≠ 0x3 := by decide +kernel

theorem witness_ErrorsChangeNothingElse :
    exec .rdbit wS24 = .next (after (exec .rdbit wS24)) ∧ statusEcode (after (exec .rdbit wS24)).status ≠ 0
      ∧ exec .embed wE5 = .next (after (exec .embed wE5)) ∧ statusEcode (after (exec .embed wE5)).status ≠ 0
      ∧ execWord 0x23 wS = .next (after (execWord 0x23 wS)) ∧ statusEcode (after (execWord 0x23 wS)).status ≠ 0 :=
  ⟨next_of_answers (by decide +kernel), by decide +kernel, next_of_answers (by decide +kernel), by decide +kernel,
    next_of_answers (by decide +kernel), by decide +kernel⟩

theorem witness_ErrorCodesAndPriority :
    wE6.params.msgBufBytes < msgLen wE6
      ∧ (msgLen wE5 ≤ wE5.params.msgBufBytes ∧ wE5.params.cap < 8 * msgLen wE5 + 16 ∧ wE5.config.getLsbD 0 = true)
      ∧ embedSucceeds wE1 = true ∧ embedSucceeds wE4 = true := by decide +kernel

theorem witness_WrbitWritesOneSlot : wS.slot.toNat < wS.params.cap ∧ wS24.params.cap ≤ wS24.slot.toNat := by
  decide +kernel

theorem witness_WrbitIsIdempotent : MachineInv wS := witness_invariant.2.1

theorem witness_RdbitReadsOneSlot :
    wS.slot.toNat < wS.params.cap ∧ wS24.params.cap ≤ wS24.slot.toNat := by decide +kernel

theorem witness_RdbitAfterWrbit :
    wS.slot.toNat < wS.params.cap ∧ (after (exec (.wrbit true) wS)).slot = wS.slot := by decide +kernel

/-- A message one byte too long, an overflow under FAIL, the exact fit and the truncated one. -/
theorem witness_EmbedWritesThePayload :
    (wE6.params.msgBufBytes + 1 = msgLen wE6)
      ∧ (msgLen wE5 ≤ wE5.params.msgBufBytes ∧ wE5.params.cap < 8 * msgLen wE5 + 16 ∧ wE5.config.getLsbD 0 = true)
      ∧ (msgLen wE1 ≤ wE1.params.msgBufBytes ∧ wE1.params.cap = 8 * msgLen wE1 + 16
        ∧ ¬ (wE1.params.cap < 8 * msgLen wE1 + 16 ∧ wE1.config.getLsbD 0 = true))
      ∧ (msgLen wE4 ≤ wE4.params.msgBufBytes
        ∧ ¬ (wE4.params.cap < 8 * msgLen wE4 + 16 ∧ wE4.config.getLsbD 0 = true)) := by decide +kernel

/-- EMBED of the first sample changes it, so the clause about a changed sample is met. -/
theorem witness_EmbedChangesOnlyLeastSignificantBits :
    memRead .car (after (exec .embed wE1)).car 1 ≠ memRead .car wE1.car 1 :=
  by decide +kernel

/-- A scan that ends at a stop group, one that reads every group, and one with none. -/
theorem witness_ExtractCopiesGroupsToTheStopGroup :
    MachineInv wE3 ∧ (extractScan (after (exec .embed wE3))).k = 0 ∧ (extractScan wE3).found = true
      ∧ (extractScan wE1).k = 3 ∧ wE1.params.cap / 8 = 3 ∧ (extractScan (start 1 2 (flat 6 1) [] 0 0 0)).k = 0 :=
  ⟨witness_invariant.2.2.2.2.2.2.2.2.2.2.1, by decide +kernel⟩

theorem witness_EmbedThenExtractRoundTrip :
    MachineInv wE1 ∧ msgLen wE1 ≤ wE1.params.msgBufBytes ∧ 8 * msgLen wE1 + 16 ≤ wE1.params.cap
      ∧ (∀ j, j < msgLen wE1 → memRead .min wE1.mIn j ≠ 0xFF)
      ∧ MachineInv (after (exec .embed wE1)) ∧ (after (exec .embed wE1)).params = wE1.params :=
  ⟨witness_invariant.2.2.2.1, by decide +kernel, by decide +kernel, by decide +kernel, witness_invariant_after.1,
    by decide +kernel⟩

theorem witness_ExtractStopsAtFirstFF :
    MachineInv wE8 ∧ msgLen wE8 ≤ wE8.params.msgBufBytes ∧ 8 * msgLen wE8 + 16 ≤ wE8.params.cap ∧ 0 < msgLen wE8
      ∧ memRead .min wE8.mIn 0 = 0xFF ∧ (∀ i, i < 0 → memRead .min wE8.mIn i ≠ 0xFF) ∧ MachineInv (after (exec .embed wE8)) :=
  ⟨witness_invariant.2.2.2.2.2.2.2.1, by decide +kernel, by decide +kernel, by decide +kernel, by decide +kernel,
    fun _ h => absurd h (Nat.not_lt_zero _), witness_invariant_after.2.2.1⟩

/-- 18 slots, 12 under TRUNCATE, 12 under FAIL. -/
theorem witness_EmptyMessage :
    (MachineInv wE3 ∧ msgLen wE3 = 0 ∧ 16 ≤ wE3.params.cap)
      ∧ (MachineInv wE9 ∧ msgLen wE9 = 0 ∧ wE9.config.getLsbD 0 = false)
      ∧ (MachineInv wE9b ∧ msgLen wE9b = 0 ∧ wE9b.params.cap < 16 ∧ wE9b.config.getLsbD 0 = true) :=
  ⟨⟨witness_invariant.2.2.2.2.2.2.2.2.2.2.1, by decide +kernel⟩,
    ⟨witness_invariant.2.2.2.2.2.2.2.2.2.2.2.1, by decide +kernel⟩,
    ⟨witness_invariant.2.2.2.2.2.2.2.2.2.2.2.2, by decide +kernel⟩⟩

/-- Both clauses: N = G in 15 slots, N < G in 18. -/
theorem witness_TruncatedEmbedThenExtract :
    (MachineInv wE13 ∧ msgLen wE13 ≤ wE13.params.msgBufBytes ∧ wE13.config.getLsbD 0 = false
        ∧ wE13.params.cap < 8 * msgLen wE13 + 16 ∧ wE13.params.cap / 8 ≤ msgLen wE13
        ∧ ∀ j, j < min (msgLen wE13) (wE13.params.cap / 8) → memRead .min wE13.mIn j ≠ 0xFF)
      ∧ (MachineInv wE14 ∧ msgLen wE14 ≤ wE14.params.msgBufBytes ∧ wE14.config.getLsbD 0 = false
        ∧ wE14.params.cap < 8 * msgLen wE14 + 16 ∧ msgLen wE14 < wE14.params.cap / 8
        ∧ ∀ j, j < min (msgLen wE14) (wE14.params.cap / 8) → memRead .min wE14.mIn j ≠ 0xFF) :=
  ⟨⟨witness_invariant.2.2.2.2.2.2.2.2.1, by decide +kernel⟩,
    ⟨witness_invariant.2.2.2.2.2.2.2.2.2.1, by decide +kernel⟩⟩

theorem witness_CapacityExhaustionScenario :
    (MachineInv wE4 ∧ wE4.params.cap = 24 ∧ msgLen wE4 = 4 ∧ 4 ≤ wE4.params.msgBufBytes
        ∧ (∀ j, j < 4 → (memRead .min wE4.mIn j).toNat < 128) ∧ wE4.config.getLsbD 0 = false)
      ∧ (MachineInv wE5 ∧ wE5.params.cap = 24 ∧ msgLen wE5 = 4 ∧ 4 ≤ wE5.params.msgBufBytes
        ∧ (∀ j, j < 4 → (memRead .min wE5.mIn j).toNat < 128) ∧ wE5.config.getLsbD 0 = true) :=
  ⟨⟨witness_invariant.2.2.2.2.1, by decide +kernel⟩, ⟨witness_invariant.2.2.2.2.2.1, by decide +kernel⟩⟩

/-- Two machines that differ in MIN past the message, in MOUT and in the result registers. -/
theorem witness_EmbedAndExtractAreDeterministic :
    let t := { start 1 8 (flat 24 0) [0x41, 0x99] 1 0 0 with mOut := [(0, 5)], bitsWritten := 3 }
    wE1 ≠ t ∧ wE1.params = t.params ∧ (∀ a, a < wE1.params.cap → memRead .car wE1.car a = memRead .car t.car a)
      ∧ wE1.msgInLen = t.msgInLen ∧ wE1.config.getLsbD 0 = t.config.getLsbD 0 ∧ (∀ j, j < msgLen wE1 → memRead .min wE1.mIn j = memRead .min t.mIn j)
      ∧ MachineInv wE1 ∧ MachineInv t :=
  ⟨by decide +kernel, by decide +kernel, fun _ _ => rfl, by decide +kernel, by decide +kernel, by decide +kernel,
    witness_invariant.2.2.2.1, inv_of_ok (by decide +kernel)⟩

/-- The bound is reached: 24 slots, the start and the completion of EMBED, and one step fewer does not end it. -/
theorem witness_SequencerAgreesWithMeaning :
    let s := issued 1 wE1
    s.seq.mode = .dec ∧ decode s.seq.cw = .command .embed ∧ seqBound .embed s ≤ 26
      ∧ answers (seqRun 26 s) (after (exec .embed s)) = true ∧ answers (seqRun 25 s) (after (exec .embed s)) = false := by
  decide +kernel

/-- The decode step of EMBED, the first and the last EMB step and the completion, the same of EXTRACT. -/
theorem witness_SlotsAreVisitedInOrder :
    ((issued 1 wE1).seq.mode = .dec ∧ seqStep (issued 1 wE1) = .next (midEmbed 0) ∧ (midEmbed 0).seq.mode ≠ .idle)
      ∧ ((midEmbed 23).seq.mode = .emb ∧ seqStep (midEmbed 23) = .next (midEmbed 24))
      ∧ ((midEmbed 24).seq.mode = .emb ∧ seqStep (midEmbed 24) = .next (midEmbed 25) ∧ (midEmbed 25).seq.mode = .idle)
      ∧ ((midExtract 23).seq.mode = .ext ∧ seqStep (midExtract 23) = .next (midExtract 24)
        ∧ memRead .car [(23, 0)] (midExtract 23).seq.idx = memRead .car (midExtract 23).car (midExtract 23).seq.idx)
      ∧ (midExtract 24).seq.mode = .ext ∧ seqStep (midExtract 24) = .next (midExtract 25) :=
  ⟨⟨by decide +kernel, next_of_answers (by decide +kernel), by decide +kernel⟩,
    ⟨by decide +kernel, next_of_answers (by decide +kernel)⟩,
    ⟨by decide +kernel, next_of_answers (by decide +kernel), by decide +kernel⟩,
    ⟨by decide +kernel, next_of_answers (by decide +kernel), by decide +kernel⟩,
    by decide +kernel, next_of_answers (by decide +kernel)⟩

theorem witness_StepRunsTheDecodedCommand :
    let s := issued 0x13 wS
    s.turns = [] ∧ s.seq.mode = .dec ∧ decode s.seq.cw = .command (.wrbit true)
      ∧ decode (issued 0x14 wS).seq.cw = .illegal .bitOperand := by decide +kernel

theorem witness_ResetSetsTheRegisters : resetOp (midEmbed 7) = resetOp (midEmbed 7) := rfl

/-- A reset between and inside the steps of EMBED, and inside no step. -/
theorem witness_ResetTurn :
    (queued [] [.reset] (midEmbed 7)).turns = .reset :: []
      ∧ (queued [] [.resetInStep] (midEmbed 7)).turns = .resetInStep :: []
      ∧ seqStep (midEmbed 7) = .next (midEmbed 8)
      ∧ (queued [] [.resetInStep] wS).seq.mode = .idle :=
  ⟨by decide +kernel, by decide +kernel, next_of_answers (by decide +kernel), by decide +kernel⟩

/-- R141: a WRBIT abandoned with BUSY = 1 may have written its bit, and the command does not complete. -/
theorem test_reset_in_wrbit :
    let s := queued [] [.resetInStep] (issued 0x13 wS)
    let r := queued [] [.reset] (issued 0x13 wS)
    statusBusy s.status = true ∧ memRead .car (after (step s)).car 23 = 0x81 ∧ (after (step s)).status = 0
      ∧ memRead .car (after (step r)).car 23 = 0x80 := by decide +kernel

/-- Each clause: EMBED stopped before its first slot and after its last; WRBIT on the last slot and past it, and another
command before its decode step; EXTRACT in its second group. -/
theorem witness_ResetDuringACommand :
    (MachineInv (issued 1 wE1) ∧ (issued 1 wE1).seq.mode = .dec ∧ decode (issued 1 wE1).seq.cw = .command .embed
        ∧ embedSucceeds (issued 1 wE1) = true ∧ 0 ≤ embedLimit (issued 1 wE1) ∧ 24 ≤ embedLimit (issued 1 wE1))
      ∧ ((issued 0x13 wS).seq.mode = .dec ∧ decode (issued 0x13 wS).seq.cw = .command (.wrbit true)
        ∧ (issued 0x13 wS).slot.toNat < (issued 0x13 wS).params.cap
        ∧ decode (issued 0x13 wS24).seq.cw = .command (.wrbit true)
        ∧ (issued 0x13 wS24).params.cap ≤ (issued 0x13 wS24).slot.toNat)
      ∧ (∀ b, decode (issued 4 wS).seq.cw ≠ .command (.wrbit b))
      ∧ (MachineInv (issued 2 wE1) ∧ (issued 2 wE1).seq.mode = .dec ∧ decode (issued 2 wE1).seq.cw = .command .extract
        ∧ seqRun 10 (issued 2 wE1) = .next (midExtract 9)) :=
  ⟨⟨witness_invariant_busy.1, by decide +kernel⟩, by decide +kernel, by decide +kernel, inv_of_ok (by decide +kernel),
    by decide +kernel, by decide +kernel, next_of_answers (by decide +kernel)⟩

theorem witness_NothingChangesBetweenCommands :
    wS.seq.mode = .idle ∧ (queued [] [.seq] wS).turns = .seq :: [] ∧ (queued [] [.host] wS).turns = .host :: []
      ∧ wS.turns = [] ∧ wS.held = none ∧ wS.hostQueue = [] := by decide +kernel

/-- Each case: nothing written, a command issued, a reset. -/
theorem witness_StatusHoldsUntilTheNextCommand :
    (wS.seq.mode = .idle ∧ step wS = .next wS)
      ∧ step (queued [.access (.regWrite 32 0 1)] [] wS) = .next (issued 1 wS)
      ∧ (step (queued [] [.reset] wS) = .next (resetOp wS) ∧ (resetOp wS).status = 0) := by
  exact ⟨⟨by decide +kernel, rfl⟩, next_of_answers (by decide +kernel), rfl, rfl⟩

/-- EXTRACT changes MSG_OUT_LEN, EMBED changes BITS_WRITTEN. -/
theorem witness_ResultRegistersHaveOneWriter :
    (step (issued 2 wE1) = .next (after (step (issued 2 wE1)))
        ∧ (after (step (issued 2 wE1))).msgOutLen ≠ (issued 2 wE1).msgOutLen)
      ∧ (step (issued 1 wE1) = .next (after (step (issued 1 wE1)))
        ∧ (after (step (issued 1 wE1))).bitsWritten ≠ (issued 1 wE1).bitsWritten) :=
  ⟨⟨next_of_answers (by decide +kernel), by decide +kernel⟩, next_of_answers (by decide +kernel), by decide +kernel⟩

/-- A turn of each agent, and a reset inside a sequencer step. -/
theorem witness_AgentsWriteOnlyTheirOwn :
    (mover wS = .host ∧ step wS = .next wS)
      ∧ (mover (issued 1 wE1) = .seq ∧ step (issued 1 wE1) = .next (after (step (issued 1 wE1))))
      ∧ (mover (queued [] [.reset] wS) = .reset ∧ (queued [] [.reset] wS).turns.head? = some .reset
        ∧ step (queued [] [.reset] wS) = .next (resetOp wS))
      ∧ (mover (queued [] [.resetInStep] (midEmbed 7)) = .reset
        ∧ (queued [] [.resetInStep] (midEmbed 7)).turns.head? = some .resetInStep
        ∧ seqStep (queued [] [.resetInStep] (midEmbed 7)) = .next (queued [] [.resetInStep] (midEmbed 8))) := by
  exact ⟨⟨by decide +kernel, rfl⟩, ⟨by decide +kernel, next_of_answers (by decide +kernel)⟩,
    ⟨by decide +kernel, by decide +kernel, rfl⟩, by decide +kernel, by decide +kernel, next_of_answers (by decide +kernel)⟩

theorem witness_BlockWritesOnlyTheBitPlane :
    step (issued 1 wE1) = .next (after (step (issued 1 wE1)))
      ∧ mover (issued 1 wE1) ≠ .host :=
  ⟨next_of_answers (by decide +kernel), by decide +kernel⟩

/-- Two machines that differ in the results of earlier commands. -/
theorem witness_CommandsIgnoreEarlierResults :
    let t := { wE1 with mOut := [(0, 5)], bitsWritten := 3, msgOutLen := 1 }
    wE1 ≠ t ∧ MachineInv wE1 ∧ MachineInv t ∧ wE1.params = t.params
      ∧ (∀ a, a < wE1.params.cap → memRead .car wE1.car a = memRead .car t.car a)
      ∧ (∀ j, j < wE1.params.msgBufBytes → memRead .min wE1.mIn j = memRead .min t.mIn j) ∧ wE1.slot = t.slot ∧ wE1.config = t.config ∧ wE1.msgInLen = t.msgInLen :=
  ⟨by decide +kernel, witness_invariant.2.2.2.1, inv_of_ok (by decide +kernel), by decide +kernel, fun _ _ => rfl, fun _ _ => rfl,
    by decide +kernel⟩

theorem witness_SequencerRegistersAreUnobservable :
    let q : Machine.Seq := { wS.seq with cw := 7, idx := 3, acc := 9 }
    wS.seq.mode = .idle ∧ q.mode = .idle ∧ q ≠ wS.seq ∧ step wS = .next wS :=
  ⟨by decide +kernel, by decide +kernel, by decide +kernel, rfl⟩

theorem witness_StatusFieldsAreConsistent : MachineInv (midEmbed 7) ∧ (midEmbed 7).seq.mode ≠ .idle :=
  ⟨witness_invariant_busy.2.1, by decide +kernel⟩

theorem witness_StepKeepsTheInvariant :
    MachineInv (issued 1 wE1) ∧ step (issued 1 wE1) = .next (after (step (issued 1 wE1))) :=
  ⟨witness_invariant_busy.1, next_of_answers (by decide +kernel)⟩

/-- The bus error of the HOST (a step that completes is the witness before this one). -/
theorem witness_NoFaultFromTheInvariant :
    MachineInv (queued [.access (.bufRead .car 8 24)] [] wS)
      ∧ step (queued [.access (.bufRead .car 8 24)] [] wS) = .refused (.busError .outOfRange) :=
  ⟨inv_of_ok (by decide +kernel), rfl⟩

end Sys2Proof.Tests
end

section
/-! Proofs for 00_scope.md R14: what one step does to the carrier when it is not the HOST's. -/

namespace Sys2Proof.Machine

/-- LsbWrite leaves bits 7:1 of every sample (20_memory.md R47). -/
theorem lsbWrite_half (m : Memory) (i : Nat) (b : Bit) (a : Nat) :
    (memRead .car (lsbWrite m i b) a).toNat / 2 = (memRead .car m a).toNat / 2 := by
  rw [memRead_lsbWrite]
  split_ifs with e
  · rw [withLsb_half, e]
  · rfl

/-- An EMBED start writes no sample (42_stego.md R110). -/
@[simp] theorem embedStart_car (s : State) : (embedStart s).car = s.car := by
  obtain ⟨-, h⟩ | ⟨-, -, -, h⟩ | ⟨-, -, h⟩ := embedStart_cases s <;> rw [h] <;> rfl

/-- The carrier after a decode step (30_encoding.md R66): unchanged, or WRBIT's one LsbWrite. -/
theorem decodeStep_car {s t : State} (h : decodeStep s = .next t) :
    t.car = s.car ∨ ∃ b, s.slot.toNat < s.params.cap ∧ t.car = lsbWrite s.car s.slot.toNat b := by
  cases hd : decode s.seq.cw with
  | illegal why =>
    rw [decodeStep_illegal hd] at h
    injection h with h; subst h; exact .inl rfl
  | command i =>
    rw [decodeStep_command hd] at h
    cases i with
    | embed => injection h with h; subst h; exact .inl (embedStart_car s)
    | extract => injection h with h; subst h; exact .inl rfl
    | wrbit b =>
      obtain hc | ⟨c, -, hv, hc⟩ | ⟨hi, -⟩ := exec_car (i := .wrbit b) h
      · exact .inl hc
      · exact .inr ⟨c, hv, hc⟩
      · cases hi
    | rdbit =>
      obtain hc | ⟨_, hi, -⟩ | ⟨hi, -⟩ := exec_car (i := .rdbit) h
      · exact .inl hc
      · cases hi
      · cases hi

/-- The carrier after a sequencer step: unchanged, or one LsbWrite of a slot that exists. -/
theorem seqStep_car {s t : State} (h : seqStep s = .next t) :
    t.car = s.car ∨ ∃ i b, i < s.params.cap ∧ t.car = lsbWrite s.car i b := by
  cases hm : s.seq.mode <;> simp only [seqStep, hm] at h
  case idle => injection h with h; subst h; exact .inl rfl
  case dec =>
    obtain hc | ⟨b, hv, hc⟩ := decodeStep_car h
    · exact .inl hc
    · exact .inr ⟨_, b, hv, hc⟩
  case emb =>
    obtain ⟨-, hi, -, rfl⟩ | ⟨-, rfl⟩ := embStep_next h
    · exact .inr ⟨_, _, hi, rfl⟩
    · exact .inl rfl
  case ext =>
    obtain ⟨-, rfl⟩ | ⟨-, -, rfl⟩ | ⟨-, -, -, rfl⟩ | ⟨-, -, -, -, rfl⟩ := extStep_next h <;> exact .inl rfl

/-- A sequencer step leaves bits 7:1 of every sample (42_stego.md R97). -/
theorem seqStep_half {s t : State} (h : seqStep s = .next t) (a : Nat) :
    (memRead .car t.car a).toNat / 2 = (memRead .car s.car a).toNat / 2 := by
  obtain hc | ⟨i, b, -, hc⟩ := seqStep_car h <;> rw [hc]
  exact lsbWrite_half s.car i b a

/-- What a reset inside a step finds has bits 7:1 of every sample as before the step (70_reset_and_hazards.md R141). -/
theorem abandonStep_half (s : State) (a : Nat) :
    (memRead .car (abandonStep s).car a).toNat / 2 = (memRead .car s.car a).toNat / 2 := by
  obtain ⟨t, ht, h⟩ | h := abandonStep_cases s <;> rw [h]
  exact seqStep_half ht a

/-- Settles O52: a command and a sequencer step write the carrier through LsbWrite alone, and a reset finds at most the
abandoned step's one LsbWrite. -/
theorem blockWritesOnlyTheBitPlane : Obligations.BlockWritesOnlyTheBitPlane := by
  intro s t h hm a
  obtain ⟨hhost, -⟩ | ⟨-, -, -, i, -, he⟩ | ⟨-, -, -, -, rfl⟩ | ⟨-, ts, hq⟩ | ⟨-, ts, -, rfl⟩ | ⟨-, ts, -, rfl⟩ :=
    step_next h
  · exact absurd hhost hm
  · exact exec_half he a
  · rfl
  · exact seqStep_half hq a
  · rfl
  · exact abandonStep_half { s with turns := ts } a

end Sys2Proof.Machine
end

section
/-! Proofs for 10_state.md R31 and 42_stego.md R110 to R114: the invariant of the block, its part that holds whatever the
sequencer does next, and the steps that keep it. -/

namespace Sys2Proof.Machine

/-- The part of the invariant that says nothing of the command in progress. -/
structure BlockInv (s : State) : Prop where
  params : s.params.wf = true
  config : s.config &&& 1 = s.config
  buffers : ∀ b, bufWf b s = true
  seqRange : SeqInRange s
  results : s.msgOutLen.toNat ≤ s.params.outBufBytes ∧ s.bitsWritten.toNat ≤ s.params.cap

theorem MachineInv.block {s : State} (h : MachineInv s) : BlockInv s :=
  ⟨h.params, h.config, h.buffers, h.seqRange, h.results⟩

/-- A buffer is well formed when it is canonical and inside its address range. -/
theorem bufWf_iff (b : Buffer) (s : State) :
    bufWf b s = true ↔ (bufOf b s).wf = true ∧ memBelow (bufSize s.params b) (bufOf b s) = true := by
  simp [bufWf]

/-- A register value made from a number is at most that number. -/
theorem zext32_toNat_le (n : Nat) : (zext32 n).toNat ≤ n := by
  rw [zext32, BitVec.toNat_ofNat]; exact Nat.mod_le _ _

/-! ## What may be written to a block that meets its invariant -/

theorem BlockInv.setBuf {s : State} (h : BlockInv s) {b : Buffer} {m : Memory} (hw : m.wf = true)
    (hm : memBelow (bufSize s.params b) m = true) : BlockInv (setBuf b s m) := by
  have hb : ∀ c, bufWf c (Machine.setBuf b s m) = true := fun c => by
    have hp : (Machine.setBuf b s m).params = s.params := by cases b <;> rfl
    rw [bufWf_iff, bufOf_setBuf, hp]
    split_ifs with e
    · subst e; exact ⟨hw, hm⟩
    · exact (bufWf_iff c s).mp (h.buffers c)
  cases b <;> exact ⟨h.params, h.config, hb, h.seqRange, h.results⟩

theorem BlockInv.setCar {s : State} (h : BlockInv s) {m : Memory} (hw : m.wf = true)
    (hm : memBelow s.params.cap m = true) : BlockInv (s.setCar m) := h.setBuf (b := .car) hw hm

theorem BlockInv.setMOut {s : State} (h : BlockInv s) {m : Memory} (hw : m.wf = true)
    (hm : memBelow s.params.outBufBytes m = true) : BlockInv (s.setMOut m) := h.setBuf (b := .mout) hw hm

theorem BlockInv.setSeq {s : State} (h : BlockInv s) {q : Seq} (hq : SeqInRange (s.setSeq q)) :
    BlockInv (s.setSeq q) := ⟨h.params, h.config, h.buffers, hq, h.results⟩

theorem BlockInv.setMsgOutLen {s : State} (h : BlockInv s) {n : Nat} (hn : n ≤ s.params.outBufBytes) :
    BlockInv (s.setMsgOutLen (zext32 n)) :=
  ⟨h.params, h.config, h.buffers, h.seqRange, (zext32_toNat_le n).trans hn, h.results.2⟩

theorem BlockInv.setBitsWritten {s : State} (h : BlockInv s) {n : Nat} (hn : n ≤ s.params.cap) :
    BlockInv (s.setBitsWritten (zext32 n)) :=
  ⟨h.params, h.config, h.buffers, h.seqRange, h.results.1, (zext32_toNat_le n).trans hn⟩

/-- An LsbWrite of a slot that exists keeps the carrier in its form. -/
theorem BlockInv.lsbWrite {s : State} (h : BlockInv s) {i : Nat} (hi : i < s.params.cap) (b : Bit) :
    BlockInv (s.setCar (lsbWrite s.car i b)) := by
  obtain ⟨hw, hm⟩ := (bufWf_iff .car s).mp (h.buffers .car)
  exact h.setCar (wf_lsbWrite hw i b) (memBelow_lsbWrite hm hi b)

/-- The loop of EMBED over slots that exist keeps the carrier in its form. -/
theorem BlockInv.embedSlots {s : State} (h : BlockInv s) (m : List Byte) {n : Nat} (hn : n ≤ s.params.cap) :
    BlockInv (s.setCar (embedSlots m s.car n)) := by
  obtain ⟨hw, hm⟩ := (bufWf_iff .car s).mp (h.buffers .car)
  exact h.setCar (wf_embedSlots m hw n) (memBelow_embedSlots m hm hn)

/-- A completion over a block that meets its invariant meets the machine's (60_exceptions.md R121). -/
theorem BlockInv.complete {s : State} (h : BlockInv s) (e : ErrorCode) (r t f : Bit) :
    MachineInv (complete e r t f s) :=
  ⟨h.params, .inr ⟨rfl, .inr ⟨e, r, t, f, rfl⟩⟩, h.config, h.buffers, h.seqRange, nofun, nofun, h.results⟩

/-- A failing EMBED (42_stego.md R95) keeps the invariant. -/
theorem BlockInv.failedEmbed {s : State} (h : BlockInv s) (e : ErrorCode) :
    MachineInv (raiseError e (s.setBitsWritten 0)) :=
  (h.setBitsWritten (Nat.zero_le _)).complete e false false false

/-! ## Commands -/

/-- The scan of R99 writes MOUT inside its range when the groups it may read are. -/
theorem memBelow_scanGroups (car : Memory) {size left k : Nat} {m : Memory} (h : memBelow size m = true)
    (hk : k + left ≤ size) : memBelow size (scanGroups car left k m).mOut = true := by
  induction left generalizing k m with
  | zero => exact h
  | succ left ih =>
    rw [scanGroups]
    split_ifs
    · exact h
    · exact ih (memBelow_memWrite h (by omega) _) (by omega)

theorem BlockInv.embedded {s : State} (h : BlockInv s) (hl : msgLen s ≤ s.params.msgBufBytes) :
    MachineInv (embedded s) := by
  have hlim : min (payloadLen (msgLen s)) s.params.cap ≤ s.params.cap := min_le_right _ _
  obtain ⟨-, -, -, haccn, houtk⟩ := h.seqRange
  refine (((h.embedSlots _ hlim).setBitsWritten hlim).setSeq ?_).complete _ _ _ _
  exact ⟨hlim, hlim, hl, haccn, houtk⟩

/-- The registers an EXTRACT leaves are in their ranges (42_stego.md R114). -/
theorem BlockInv.seqAfterExtract_inRange {s : State} (h : BlockInv s) {u : State} (hu : u.params = s.params) :
    SeqInRange (u.setSeq (seqAfterExtract s.seq s.car s.params.cap (extractScan s))) := by
  obtain ⟨hk, -, hfound, -⟩ := extractScan_spec ((bufWf_iff .mout s).mp (h.buffers .mout)).1
  obtain ⟨-, hlim, hn, -, -⟩ := h.seqRange
  simp only [SeqInRange, setSeq_params, setSeq_seq, hu, seqAfterExtract, Params.outBufBytes]
  split_ifs with hf
  · have hidx : 8 * ((extractScan s).k + 1) ≤ s.params.cap := by have := (hfound hf).1; omega
    exact ⟨hidx, hlim, hn, le_refl 7, hk⟩
  · have haccn : s.params.cap % 8 ≤ 7 := by omega
    exact ⟨le_refl _, hlim, hn, haccn, hk⟩

theorem BlockInv.extracted {s : State} (h : BlockInv s) : MachineInv (extracted s) := by
  obtain ⟨hw, hm⟩ := (bufWf_iff .mout s).mp (h.buffers .mout)
  obtain ⟨hk, -, -, -, hw', -⟩ := extractScan_spec hw
  have hm' : memBelow s.params.outBufBytes (extractScan s).mOut = true :=
    memBelow_scanGroups s.car hm (Nat.zero_add _).le
  exact (((h.setMOut hw' hm').setMsgOutLen hk).setSeq (h.seqAfterExtract_inRange rfl)).complete _ _ _ _

/-- Every command, run whole, ends in a state that meets the invariant. -/
theorem BlockInv.exec {s t : State} {i : Instr} (h : BlockInv s) (he : exec i s = .next t) : MachineInv t := by
  cases i with
  | embed =>
    obtain ⟨-, k⟩ | ⟨-, -, -, k⟩ | ⟨hl, -, k⟩ := execEmbed_cases s <;> cases he.symm.trans k
    · exact h.failedEmbed _
    · exact h.failedEmbed _
    · exact h.embedded hl
  | extract => cases he; exact h.extracted
  | wrbit b =>
    by_cases hv : s.slot.toNat < s.params.cap
    · cases he.symm.trans (execWrbit_valid b hv); exact (h.lsbWrite hv b).complete _ _ _ _
    · cases he.symm.trans (execWrbit_invalid b (Nat.le_of_not_lt hv)); exact h.complete _ _ _ _
  | rdbit =>
    by_cases hv : s.slot.toNat < s.params.cap
    · cases he.symm.trans (execRdbit_valid hv); exact h.complete _ _ _ _
    · cases he.symm.trans (execRdbit_invalid (Nat.le_of_not_lt hv)); exact h.complete _ _ _ _

/-! ## Sequencer steps -/

/-- While a command executes STATUS is that of its issue (10_state.md R21). -/
theorem MachineInv.busy {s : State} (h : MachineInv s) (hm : s.seq.mode ≠ .idle) : s.status = busyStatus := by
  obtain ⟨-, hs⟩ | ⟨hi, -⟩ := h.status
  · exact hs
  · exact absurd hi hm

/-- A started EMBED meets the invariant (42_stego.md R110). -/
theorem MachineInv.embedStart {s : State} (h : MachineInv s) (hm : s.seq.mode = .dec) :
    MachineInv (embedStart s) := by
  obtain ⟨-, k⟩ | ⟨-, -, -, k⟩ | ⟨hl, -, k⟩ := embedStart_cases s <;> rw [k]
  · exact h.block.failedEmbed _
  · exact h.block.failedEmbed _
  · obtain ⟨-, -, -, haccn, houtk⟩ := h.seqRange
    exact ⟨h.params, .inl ⟨nofun, h.busy (by simp [hm])⟩, h.config, h.buffers,
      ⟨Nat.zero_le _, min_le_right _ _, hl, haccn, houtk⟩, fun _ => ⟨Nat.zero_le _, rfl, rfl⟩, nofun, h.results⟩

/-- A started EXTRACT meets the invariant (42_stego.md R113). -/
theorem MachineInv.extractStart {s : State} (h : MachineInv s) (hm : s.seq.mode = .dec) :
    MachineInv (extractStart s) := by
  obtain ⟨-, hlim, hn, -, -⟩ := h.seqRange
  exact ⟨h.params, .inl ⟨nofun, h.busy (by simp [hm])⟩, h.config, h.buffers,
    ⟨Nat.zero_le _, hlim, hn, Nat.zero_le _, Nat.zero_le _⟩, nofun,
    fun _ => ⟨rfl, (Nat.zero_div 8).symm, Nat.one_pos⟩, h.results⟩

theorem MachineInv.decodeStep {s t : State} (h : MachineInv s) (hm : s.seq.mode = .dec)
    (hs : decodeStep s = .next t) : MachineInv t := by
  cases hd : decode s.seq.cw with
  | illegal why => cases hs.symm.trans (decodeStep_illegal hd); exact h.block.complete _ _ _ _
  | command i =>
    rw [decodeStep_command hd] at hs
    cases i with
    | embed => cases hs; exact h.embedStart hm
    | extract => cases hs; exact h.extractStart hm
    | wrbit b => exact h.block.exec (i := .wrbit b) hs
    | rdbit => exact h.block.exec (i := .rdbit) hs

theorem MachineInv.embStep {s t : State} (h : MachineInv s) (hm : s.seq.mode = .emb)
    (hs : embStep s = .next t) : MachineInv t := by
  obtain ⟨-, hlim, hn, haccn, houtk⟩ := h.seqRange
  obtain ⟨-, hlimEq, htr⟩ := h.emb hm
  obtain ⟨hlt, hcap, -, rfl⟩ | ⟨-, rfl⟩ := embStep_next hs
  · exact ⟨h.params, .inl ⟨by simp [hm], h.busy (by simp [hm])⟩, h.config, (h.block.lsbWrite hcap _).buffers,
      ⟨hcap, hlim, hn, haccn, houtk⟩, fun _ => ⟨hlt, hlimEq, htr⟩, by simp [hm], h.results⟩
  · exact (h.block.setBitsWritten hlim).complete _ _ _ _

/-- One bit shifted into a group register below `2 ^ n` leaves it below `2 ^ (n + 1)` (42_stego.md R114). -/
theorem shiftIn_lt {acc : Byte} {n : Nat} (h : acc.toNat < 2 ^ n) (b : Bit) :
    (shiftIn acc b).toNat < 2 ^ (n + 1) := by
  have hb : bitNat b < 2 := by cases b <;> decide
  rw [shiftIn, BitVec.toNat_ofNat, pow_succ]
  exact (Nat.mod_le _ _).trans_lt (by omega)

theorem MachineInv.extStep {s t : State} (h : MachineInv s) (hm : s.seq.mode = .ext)
    (hs : extStep s = .next t) : MachineInv t := by
  obtain ⟨-, hlim, hn, haccn, houtk⟩ := h.seqRange
  obtain ⟨haccnEq, houtkEq, hacc⟩ := h.ext hm
  obtain ⟨-, rfl⟩ | ⟨hcap, h7, rfl⟩ | ⟨hcap, -, -, rfl⟩ | ⟨hcap, h7, -, hout, rfl⟩ := extStep_next hs
  · exact (h.block.setMsgOutLen houtk).complete _ _ _ _
  · refine ⟨h.params, .inl ⟨by simp [hm], h.busy (by simp [hm])⟩, h.config, h.buffers,
      ⟨hcap, hlim, hn, ?_, houtk⟩, by simp [hm], fun _ => ⟨?_, ?_, shiftIn_lt hacc _⟩, h.results⟩ <;>
      simp only [setSeq_seq] <;> omega
  · refine ((h.block.setMsgOutLen houtk).setSeq ?_).complete _ _ _ _
    exact ⟨hcap, hlim, hn, haccn, houtk⟩
  · obtain ⟨hw, hb⟩ := (bufWf_iff .mout s).mp (h.buffers .mout)
    refine ⟨h.params, .inl ⟨by simp [hm], h.busy (by simp [hm])⟩, h.config,
      (h.block.setMOut (wf_memWrite hw _ _) (memBelow_memWrite hb hout _)).buffers,
      ⟨hcap, hlim, hn, Nat.zero_le _, hout⟩, by simp [hm], fun _ => ⟨?_, ?_, Nat.one_pos⟩, h.results⟩ <;>
      simp only [setSeq_seq] <;> omega

/-- Every sequencer step keeps the invariant. -/
theorem MachineInv.seqStep {s t : State} (h : MachineInv s) (hs : seqStep s = .next t) : MachineInv t := by
  cases hm : s.seq.mode <;> simp only [Machine.seqStep, hm] at hs
  case idle => cases hs; exact h
  case dec => exact h.decodeStep hm hs
  case emb => exact h.embStep hm hs
  case ext => exact h.extStep hm hs

/-- What a reset inside a step finds meets the block's invariant (70_reset_and_hazards.md R141). -/
theorem MachineInv.abandonStep {s : State} (h : MachineInv s) : BlockInv (abandonStep s) := by
  obtain ⟨t, ht, k⟩ | k := abandonStep_cases s <;> rw [k]
  · have hb : ∀ b, bufWf b t = true := (h.seqStep ht).buffers
    have hp := (seqStep_frame ht).params
    have hwf : ∀ b, (bufOf b t).wf = true ∧ memBelow (bufSize s.params b) (bufOf b t) = true := fun b => by
      rw [← hp]; exact (bufWf_iff b t).mp (hb b)
    obtain ⟨hcw, hcb⟩ := hwf .car
    obtain ⟨how, hob⟩ := hwf .mout
    exact (h.block.setCar hcw hcb).setMOut how hob
  · exact h.block

/-! ## The HOST's turn and reset -/

/-- Command issue meets the invariant (30_encoding.md R65). -/
theorem BlockInv.issue {s : State} (h : BlockInv s) (w : Word) : MachineInv (issue w s) :=
  ⟨h.params, .inl ⟨nofun, rfl⟩, h.config, h.buffers, h.seqRange, nofun, nofun, h.results⟩

/-- The HOST's side of the port and its schedule are no part of the invariant. -/
theorem MachineInv.hostSide {s : State} (h : MachineInv s) (q : List HostStmt) (g : List HostResult)
    (hd : Option HostAccess) (ts : List Turn) :
    MachineInv { s with hostQueue := q, hostGot := g, held := hd, turns := ts } :=
  ⟨h.params, h.status, h.config, h.buffers, h.seqRange, h.emb, h.ext, h.results⟩

/-- A HOST write of a register keeps the invariant: CONFIG's reserved bits are not stored (20_memory.md R56). -/
theorem MachineInv.writeReg {s : State} (h : MachineInv s) (r : HostReg) (v : Word) :
    MachineInv (writeReg r v s) := by
  obtain k | k | k | k | k := writeReg_cases r v s <;> rw [k]
  · exact h.block.issue v
  · exact ⟨h.params, h.status, h.config, h.buffers, h.seqRange, h.emb, h.ext, h.results⟩
  · exact ⟨h.params, h.status, by simp [BitVec.and_assoc], h.buffers, h.seqRange, h.emb, h.ext, h.results⟩
  · exact ⟨h.params, h.status, h.config, h.buffers, h.seqRange, h.emb, h.ext, h.results⟩
  · exact h

/-- A HOST write of a byte inside its buffer keeps the invariant. -/
theorem MachineInv.writeByte {s : State} (h : MachineInv s) {b : Buffer} {n : Nat} (hn : n < bufSize s.params b)
    (v : Byte) : MachineInv (setBuf b s (memWrite (bufOf b s) n v)) := by
  obtain ⟨hw, hm⟩ := (bufWf_iff b s).mp (h.buffers b)
  have hb := (h.block.setBuf (wf_memWrite hw n v) (memBelow_memWrite hm hn v)).buffers
  cases b <;> exact ⟨h.params, h.status, h.config, hb, h.seqRange, h.emb, h.ext, h.results⟩

/-- Every HOST turn keeps the invariant. -/
theorem MachineInv.hostTurn {s t : State} (h : MachineInv s) (hs : hostTurn s = .next t) : MachineInv t := by
  obtain ⟨q, g, hd, rfl⟩ | ⟨-, q, hd, ⟨r, v, rfl⟩ | ⟨b, n, v, -, hn, rfl⟩⟩ := hostTurn_next hs
  · exact h.hostSide q g hd s.turns
  · exact (h.hostSide q s.hostGot hd s.turns).writeReg r v
  · have k := (h.hostSide q s.hostGot hd s.turns).writeByte (b := b) hn v
    cases b <;> exact k

/-- Reset meets the invariant from every block that meets its own (70_reset_and_hazards.md R140). -/
theorem BlockInv.resetOp {s : State} (h : BlockInv s) : MachineInv (resetOp s) := by
  obtain ⟨hm, hr⟩ := freeSeq_inRange s.params s.draws
  exact ⟨h.params, .inr ⟨hm, .inl rfl⟩, (rfl : (0 : Word) &&& 1 = 0), h.buffers, hr, nofun, nofun, Nat.zero_le _, Nat.zero_le _⟩

/-- Settles O57, agent by agent: what each turn can do is one of `step_next`'s cases, and each case keeps the invariant. -/
theorem stepKeepsTheInvariant : Obligations.StepKeepsTheInvariant := by
  intro s t h hs
  have hturns : ∀ ts, MachineInv { s with turns := ts } := h.hostSide s.hostQueue s.hostGot s.held
  obtain ⟨-, ts, hh⟩ | ⟨-, -, -, i, -, he⟩ | ⟨-, -, -, -, rfl⟩ | ⟨-, ts, hq⟩ | ⟨-, ts, -, rfl⟩ | ⟨-, ts, -, rfl⟩ :=
    step_next hs
  · exact (hturns ts).hostTurn hh
  · exact h.block.exec he
  · exact h.block.complete _ _ _ _
  · exact (hturns ts).seqStep hq
  · exact (hturns ts).block.resetOp
  · exact (hturns ts).abandonStep.resetOp

end Sys2Proof.Machine
end

section
/-! Proofs for 10_state.md R17 to R32: what the registers and bytes read, who writes the result registers, and what a
command's results depend on. -/

namespace Sys2Proof.Machine

/-! ## What a HOST access of a register or a byte does -/

/-- A 32-bit read at a register's offset answers the register's value (10_state.md R17). -/
theorem hostAccess_regRead (s : State) (r : HostReg) :
    hostAccess (.regRead 32 (regOffset r)) s = .next (answer (.word (readReg s r)) s) := by
  simp only [hostAccess, selectAccess, selectReg_regOffset, portOp]

/-- A 32-bit write at a register's offset is the write of that register (10_state.md R17). -/
theorem hostAccess_regWrite (s : State) (r : HostReg) (v : Word) :
    hostAccess (.regWrite 32 (regOffset r) v) s = .next (writeReg r v s) := by
  simp only [hostAccess, selectAccess, selectReg_regOffset, portOp]

/-- A byte read in range answers the byte (20_memory.md R49, R50). -/
theorem hostAccess_bufRead (s : State) {b : Buffer} {a : Nat} (h : a < bufSize s.params b) :
    hostAccess (.bufRead b 8 a) s = .next (answer (.byte (memRead b (bufOf b s) a)) s) := by
  obtain ⟨-, -, hs⟩ | ⟨hw | ha, -⟩ := selectByte_cases s.params b 8 a
  · simp only [hostAccess, selectAccess, hs, portOp]
  · exact absurd rfl hw
  · exact absurd h (Nat.not_lt.mpr ha)

/-- Settles O60: each read is the answer of its register or byte. -/
theorem hostReadsReturnTheValueHeld : Obligations.HostReadsReturnTheValueHeld := by
  intro s
  exact ⟨hostAccess_regRead s .slot, hostAccess_regRead s .status, hostAccess_regRead s .msgInLen,
    hostAccess_regRead s .msgOutLen, hostAccess_regRead s .bitsWritten, fun _ h => hostAccess_bufRead s (b := .car) h,
    fun _ h => hostAccess_bufRead s (b := .min) h, fun _ h => hostAccess_bufRead s (b := .mout) h⟩

/-- Settles O20: a write of either register, then its read. -/
theorem operandRegistersReadBack : Obligations.OperandRegistersReadBack := by
  intro s v
  exact ⟨⟨_, hostAccess_regWrite s .slot v, rfl, hostAccess_regRead _ .slot⟩,
    ⟨_, hostAccess_regWrite s .msgInLen v, rfl, hostAccess_regRead _ .msgInLen⟩⟩

/-- Settles O59: `memRead` is the written byte or the free one, `memGet_memWrite` says what a write makes written, and the
state after reset lists nothing. -/
theorem unwrittenBytesAreFree : Obligations.UnwrittenBytesAreFree := by
  refine ⟨fun b m a => ⟨fun v h => ?_, fun h => ?_⟩, fun m a v => ⟨?_, fun c hc => ?_⟩, fun b a => ?_⟩
  · rw [memRead, h]; rfl
  · rw [memRead, h]; rfl
  · rw [memGet_memWrite, if_pos rfl]
  · rw [memGet_memWrite, if_neg hc]
  · cases b <;> rfl

/-! ## STATUS (10_state.md R20, R21) -/

/-- ERR is 1 exactly when ECODE is not 0, in every STATUS a completion writes (60_exceptions.md R121). -/
theorem completeStatus_err_iff (e : ErrorCode) (r t f : Bit) :
    statusErr (completeStatus e r t f) = true ↔ statusEcode (completeStatus e r t f) ≠ 0 := by
  rw [statusErr_complete, statusEcode_complete]
  cases e <;> decide

/-- Settles O55, for each legal value of STATUS: that of an issue, 0, and those of the completions. -/
theorem statusFieldsAreConsistent : Obligations.StatusFieldsAreConsistent := by
  intro s h
  obtain ⟨hm, hs⟩ | ⟨hm, hs | ⟨e, r, t, f, hs⟩⟩ := h.status <;> rw [hs]
  · have hhigh : ∀ i, 11 ≤ i → busyStatus.getLsbD i = false := fun i hi =>
      Nat.testBit_lt_two_pow ((show 1 < 2 ^ 11 by decide).trans_le (Nat.pow_le_pow_right (by decide) hi))
    exact ⟨rfl, by decide, rfl, hhigh, by simp [hm], fun _ => rfl⟩
  · exact ⟨rfl, by decide, rfl, fun i _ => BitVec.getLsbD_zero, by simp [hm, statusBusy], fun k => absurd hm k⟩
  · exact ⟨by simp, completeStatus_err_iff e r t f, completeStatus_bit3 e r t f,
      fun i hi => completeStatus_high e r t f hi, by simp [hm], fun k => absurd hm k⟩

/-! ## The HOST while a command executes (10_state.md R34) -/

/-- A HOST turn with BUSY = 1 completes, tells the HOST at most the value of STATUS and leaves the block (20_memory.md
R51). -/
theorem hostTurn_busy {s : State} (hb : statusBusy s.status = true) :
    ∃ q g hd, hostTurn s = .next { s with hostQueue := q, hostGot := g, held := hd }
      ∧ (g = s.hostGot ∨ g = .word s.status :: s.hostGot) := by
  unfold hostTurn
  cases hh : s.held with
  | some a => exact ⟨s.hostQueue, s.hostGot, some a, by simp [hb, ← hh], .inl rfl⟩
  | none =>
    cases hq : s.hostQueue with
    | nil => exact ⟨[], s.hostGot, none, by simp [← hh, ← hq], .inl rfl⟩
    | cons st rest =>
      cases st with
      | wait =>
        refine ⟨.wait :: rest, _, none, ?_, .inr rfl⟩
        simp [hostStmt, hb, answer, State.setHostGot, ← hh, ← hq]
      | access a =>
        by_cases ha : isStatusRead a = true
        · obtain rfl := (isStatusRead_iff a).mp ha
          refine ⟨rest, _, none, ?_, .inr rfl⟩
          simp [hostStmt, ha, hostAccess_status, State.setHostGot, State.setHostQueue, ← hh]
        · refine ⟨rest, s.hostGot, some a, ?_, .inl rfl⟩
          simp [hostStmt, hb, ha, State.setHeld, State.setHostQueue]

/-- Settles O16: while the sequencer is not idle the invariant makes STATUS that of an issue, so the HOST's turn is one with
BUSY = 1. -/
theorem hostSeesNoPartialEffect : Obligations.HostSeesNoPartialEffect := by
  intro s ts h hm hts
  have hstep : step s = hostTurn (s.setTurns ts) := by simp only [step, hts]
  have hs : s.status = busyStatus := h.busy hm
  obtain ⟨q, g, hd, ht, hg⟩ := hostTurn_busy (s := s.setTurns ts) (by simp [hs])
  refine ⟨_, hstep.trans ht, ?_, rfl⟩
  obtain hg | hg := hg
  · exact .inl hg
  · exact .inr (hg.trans (by rw [setTurns_status, hs]; rfl))

/-! ## The parameters (10_state.md R23 to R25, R29) -/

/-- A HOST turn changes neither the parameters nor the result registers. -/
theorem hostTurn_frame {s t : State} (h : hostTurn s = .next t) :
    t.params = s.params ∧ t.msgOutLen = s.msgOutLen ∧ t.bitsWritten = s.bitsWritten := by
  obtain ⟨q, g, hd, rfl⟩ | ⟨-, q, hd, ⟨r, v, rfl⟩ | ⟨b, n, v, -, -, rfl⟩⟩ := hostTurn_next h
  · exact ⟨rfl, rfl, rfl⟩
  · obtain k | k | k | k | k := writeReg_cases r v { s with hostQueue := q, held := hd } <;> rw [k] <;>
      exact ⟨rfl, rfl, rfl⟩
  · cases b <;> exact ⟨rfl, rfl, rfl⟩

/-- A command that answers keeps its frame. -/
theorem exec_frame {i : Instr} {s t : State} (h : exec i s = .next t) : SeqFrame s t := by
  obtain ⟨u, -, -, -, -, hu, -, -, hf⟩ := exec_completes i s
  cases h.symm.trans hu; exact hf

/-- No step changes the parameters (log entry 1). -/
theorem step_params {s t : State} (h : step s = .next t) : t.params = s.params := by
  obtain ⟨-, ts, hh⟩ | ⟨-, -, -, i, -, he⟩ | ⟨-, -, -, -, rfl⟩ | ⟨-, ts, hq⟩ | ⟨-, ts, -, rfl⟩ | ⟨-, ts, -, rfl⟩ :=
    step_next h
  · exact (hostTurn_frame hh).1
  · exact (exec_frame he).params
  · rfl
  · exact (seqStep_frame hq).params
  · rfl
  · rw [abandonStep_eq]; rfl

/-- Settles O21: the four reads, and `step_params`. -/
theorem parameterRegistersAreConstant : Obligations.ParameterRegistersAreConstant := by
  refine ⟨fun s => ?_, fun s t => step_params⟩
  exact ⟨hostAccess_regRead s .capacity, hostAccess_regRead s .rows, hostAccess_regRead s .cols,
    hostAccess_regRead s .msgBufSize⟩

/-! ## Who writes the result registers (10_state.md R27, R28) -/

/-- A command word by its fields (30_encoding.md R60). -/
theorem word_eq_fields (w : Word) : w.toNat = (opField w).toNat + 16 * bitNat (bField w) + 32 * (rsvField w).toNat := by
  have hw := w.isLt
  have hb : bitNat (bField w) = w.toNat / 16 % 2 := by
    simp only [bField, BitVec.getLsbD, Nat.testBit_eq_decide_div_mod_eq, bitNat]
    split_ifs with h <;> simp at h <;> omega
  rw [hb, opField, rsvField, BitVec.extractLsb'_toNat, BitVec.extractLsb'_toNat, Nat.shiftRight_eq_div_pow,
    Nat.shiftRight_eq_div_pow]
  omega

/-- A word that decodes to a command has the command's fields (30_encoding.md R62, R63). -/
theorem fields_of_decode {w : Word} {i : Instr} (h : decode w = .command i) :
    (opField w).toNat = opcode i ∧ bField w = bOperand i ∧ rsvField w = 0 := by
  unfold decode at h
  split_ifs at h with hr h3 hb h1 h2 h4
  all_goals simp only [not_not, Bool.not_eq_true] at *
  · cases h; exact ⟨by rw [h3]; rfl, rfl, hr⟩
  · cases h; exact ⟨by rw [h1]; rfl, hb, hr⟩
  · cases h; exact ⟨by rw [h2]; rfl, hb, hr⟩
  · cases h; exact ⟨by rw [h4]; rfl, hb, hr⟩

/-- The only word that decodes to a command is its encoding (30_encoding.md R63). -/
theorem encode_of_decode {w : Word} {i : Instr} (h : decode w = .command i) : w = encode i := by
  obtain ⟨ho, hb, hr⟩ := fields_of_decode h
  apply BitVec.eq_of_toNat_eq
  rw [word_eq_fields, ho, hb, hr]
  cases i with
  | wrbit b => cases b <;> rfl
  | embed => rfl
  | extract => rfl
  | rdbit => rfl

/-- Of the commands EXTRACT alone writes MSG_OUT_LEN, and EMBED alone BITS_WRITTEN. -/
theorem exec_results {i : Instr} {s t : State} (h : exec i s = .next t) :
    (i ≠ .extract → t.msgOutLen = s.msgOutLen) ∧ (i ≠ .embed → t.bitsWritten = s.bitsWritten) := by
  cases i with
  | embed =>
    obtain ⟨-, k⟩ | ⟨-, -, -, k⟩ | ⟨-, -, k⟩ := execEmbed_cases s <;> cases h.symm.trans k <;>
      exact ⟨fun _ => rfl, fun hi => absurd rfl hi⟩
  | extract => cases h; exact ⟨fun hi => absurd rfl hi, fun _ => rfl⟩
  | wrbit b =>
    by_cases hv : s.slot.toNat < s.params.cap
    · cases h.symm.trans (execWrbit_valid b hv); exact ⟨fun _ => rfl, fun _ => rfl⟩
    · cases h.symm.trans (execWrbit_invalid b (Nat.le_of_not_lt hv)); exact ⟨fun _ => rfl, fun _ => rfl⟩
  | rdbit =>
    by_cases hv : s.slot.toNat < s.params.cap
    · cases h.symm.trans (execRdbit_valid hv); exact ⟨fun _ => rfl, fun _ => rfl⟩
    · cases h.symm.trans (execRdbit_invalid (Nat.le_of_not_lt hv)); exact ⟨fun _ => rfl, fun _ => rfl⟩

/-- The decode step writes BITS_WRITTEN at most for an EMBED that fails (42_stego.md R110), and never MSG_OUT_LEN. -/
theorem decodeStep_results {s t : State} (h : decodeStep s = .next t) :
    t.msgOutLen = s.msgOutLen ∧ (decode s.seq.cw ≠ .command .embed → t.bitsWritten = s.bitsWritten) := by
  cases hd : decode s.seq.cw with
  | illegal why => cases h.symm.trans (decodeStep_illegal hd); exact ⟨rfl, fun _ => rfl⟩
  | command i =>
    rw [decodeStep_command hd] at h
    cases i with
    | embed =>
      cases h
      refine ⟨?_, fun hi => absurd rfl hi⟩
      obtain ⟨-, k⟩ | ⟨-, -, -, k⟩ | ⟨-, -, k⟩ := embedStart_cases s <;> rw [k] <;> rfl
    | extract => cases h; exact ⟨rfl, fun _ => rfl⟩
    | wrbit b =>
      obtain ⟨ho, hb⟩ := exec_results (i := .wrbit b) h
      exact ⟨ho nofun, fun _ => hb nofun⟩
    | rdbit =>
      obtain ⟨ho, hb⟩ := exec_results (i := .rdbit) h
      exact ⟨ho nofun, fun _ => hb nofun⟩

/-- A sequencer step writes MSG_OUT_LEN in EXT mode alone, and BITS_WRITTEN in EMB mode or in the decode step of an
EMBED. -/
theorem seqStep_results {s t : State} (h : seqStep s = .next t) :
    (t.msgOutLen ≠ s.msgOutLen → s.seq.mode = .ext) ∧
    (t.bitsWritten ≠ s.bitsWritten → s.seq.mode = .emb ∨ (s.seq.mode = .dec ∧ decode s.seq.cw = .command .embed)) := by
  cases hm : s.seq.mode <;> simp only [seqStep, hm] at h
  case idle => cases h; exact ⟨fun k => absurd rfl k, fun k => absurd rfl k⟩
  case dec =>
    obtain ⟨ho, hb⟩ := decodeStep_results h
    exact ⟨fun k => absurd ho k, fun k => .inr ⟨rfl, not_not.mp (mt hb k)⟩⟩
  case emb =>
    refine ⟨fun k => absurd ?_ k, fun _ => .inl rfl⟩
    obtain ⟨-, -, -, rfl⟩ | ⟨-, rfl⟩ := embStep_next h <;> rfl
  case ext =>
    refine ⟨fun _ => rfl, fun k => absurd ?_ k⟩
    obtain ⟨-, rfl⟩ | ⟨-, -, rfl⟩ | ⟨-, -, -, rfl⟩ | ⟨-, -, -, -, rfl⟩ := extStep_next h <;> rfl

/-- Settles O50: no HOST turn writes a result register, and a command or a sequencer step only its own. -/
theorem resultRegistersHaveOneWriter : Obligations.ResultRegistersHaveOneWriter := by
  intro s t h
  obtain ⟨-, ts, hh⟩ | ⟨-, -, hm, i, hd, he⟩ | ⟨-, -, -, -, rfl⟩ | ⟨-, ts, hq⟩ | ⟨hr, -⟩ | ⟨hr, -⟩ := step_next h
  · obtain ⟨-, ho, hb⟩ := hostTurn_frame hh
    exact ⟨fun k => absurd ho k, fun k => absurd hb k⟩
  · obtain ⟨ho, hb⟩ := exec_results he
    refine ⟨fun k => .inr (.inr ⟨hm, ?_⟩), fun k => .inr (.inr ⟨hm, ?_⟩)⟩
    · rw [encode_of_decode hd, not_not.mp (mt ho k)]
    · rw [encode_of_decode hd, not_not.mp (mt hb k)]
  · exact ⟨fun k => absurd rfl k, fun k => absurd rfl k⟩
  · obtain ⟨ho, hb⟩ := seqStep_results hq
    refine ⟨fun k => .inr (.inl (ho k)), fun k => .inr ?_⟩
    obtain hm | ⟨hm, hd⟩ := hb k
    · exact .inl hm
    · exact .inr ⟨hm, encode_of_decode hd⟩
  · exact ⟨fun _ => .inl hr, fun _ => .inl hr⟩
  · exact ⟨fun _ => .inl hr, fun _ => .inl hr⟩

end Sys2Proof.Machine
end

section
/-! Proofs for 10_state.md R31 and R32: what a command's results depend on, and that the sequencer's registers between
commands are not among it. -/

namespace Sys2Proof.Machine

/-! ## Earlier results (10_state.md R32) -/

/-- Two states hold the same of all that a command's results may depend on (10_state.md R32). -/
structure SameInputs (s t : State) : Prop where
  params : s.params = t.params
  car : ∀ a, a < s.params.cap → memRead .car s.car a = memRead .car t.car a
  min : ∀ j, j < s.params.msgBufBytes → memRead .min s.mIn j = memRead .min t.mIn j
  slot : s.slot = t.slot
  config : s.config = t.config
  msgInLen : s.msgInLen = t.msgInLen

/-- EMBED tests and writes the same message length, policy and bytes (42_stego.md R95). -/
theorem SameInputs.msgLen_eq {s t : State} (h : SameInputs s t) : msgLen t = msgLen s := by
  rw [msgLen, msgLen, h.msgInLen]

theorem SameInputs.policyFail_eq {s t : State} (h : SameInputs s t) : policyFail t = policyFail s := by
  rw [policyFail, policyFail, h.config]

theorem SameInputs.minBytes_eq {s t : State} (h : SameInputs s t) {n : Nat} (hn : n ≤ s.params.msgBufBytes) :
    minBytes t n = minBytes s n :=
  List.map_congr_left fun j hj => (h.min j ((List.mem_range.mp hj).trans_le hn)).symm

/-- Every slot that exists has the same bit. -/
theorem SameInputs.lsbRead_eq {s t : State} (h : SameInputs s t) {a : Nat} (ha : a < s.params.cap) :
    lsbRead s.car a = lsbRead t.car a := by
  rw [lsbRead, lsbRead, h.car a ha]

/-- The same LsbWrite of two carriers leaves the same bytes. -/
theorem SameInputs.memRead_lsbWrite_eq {s t : State} (h : SameInputs s t) {i : Nat} (hi : i < s.params.cap) (b : Bit)
    {a : Nat} (ha : a < s.params.cap) :
    memRead .car (lsbWrite s.car i b) a = memRead .car (lsbWrite t.car i b) a := by
  rw [memRead_lsbWrite, memRead_lsbWrite, h.car i hi, h.car a ha]

/-- EMBED's results depend on its inputs alone. -/
theorem SameInputs.execEmbed_results {s t : State} (h : SameInputs s t) :
    ∃ u v, execEmbed s = .next u ∧ execEmbed t = .next v ∧ u.status = v.status ∧ u.bitsWritten = v.bitsWritten ∧
      ∀ a, a < s.params.cap → memRead .car u.car a = memRead .car v.car a := by
  obtain ⟨hl, hu⟩ | ⟨hl, ho, hp, hu⟩ | ⟨hl, hs, hu⟩ := execEmbed_cases s
  · refine ⟨_, _, hu, execEmbed_tooLong ?_, rfl, rfl, h.car⟩
    rwa [← h.params, h.msgLen_eq]
  · refine ⟨_, _, hu, execEmbed_overflow ?_ ?_ ?_, rfl, rfl, h.car⟩
    · rwa [← h.params, h.msgLen_eq]
    · rwa [← h.params, h.msgLen_eq]
    · rwa [h.policyFail_eq]
  · refine ⟨_, _, hu, execEmbed_succeeds ?_ ?_, ?_, ?_, fun a ha => ?_⟩
    · rwa [← h.params, h.msgLen_eq]
    · rwa [← h.params, h.msgLen_eq, h.policyFail_eq]
    · simp only [embedded, complete_status, ← h.params, h.msgLen_eq]
    · simp only [embedded, complete_bitsWritten, setSeq_bitsWritten, setBitsWritten_bitsWritten, ← h.params, h.msgLen_eq]
    · simp only [embedded, complete_car, setSeq_car, setBitsWritten_car, setCar_car, ← h.params, h.msgLen_eq,
        h.minBytes_eq hl, memRead_embedSlots, h.car a ha]

/-- Every complete group has the same byte. -/
theorem SameInputs.groupAt_eq {s t : State} (h : SameInputs s t) {k : Nat} (hk : k < s.params.cap / 8) :
    groupAt s.car k = groupAt t.car k :=
  groupAt_congr fun a _ ha => h.car a (by omega)

/-- EXTRACT's results depend on its inputs alone, whatever MOUT held. -/
theorem SameInputs.extracted_results {s t : State} (h : SameInputs s t) (hs : s.mOut.wf = true)
    (ht : t.mOut.wf = true) :
    (extracted s).status = (extracted t).status ∧ (extracted s).msgOutLen = (extracted t).msgOutLen ∧
      ∀ j, j < (extracted s).msgOutLen.toNat →
        memRead .mout (extracted s).mOut j = memRead .mout (extracted t).mOut j := by
  obtain ⟨hk, hf⟩ : (extractScan s).k = (extractScan t).k ∧ (extractScan s).found = (extractScan t).found := by
    rw [extractScan, extractScan, ← h.params]
    exact scanGroups_congr _ 0 _ _ fun j _ hj => h.groupAt_eq (by omega)
  refine ⟨?_, ?_, fun j hj => ?_⟩
  · simp only [extracted, complete_status, hf]
  · simp only [extracted, complete_msgOutLen, setSeq_msgOutLen, setMsgOutLen_msgOutLen, hk]
  · obtain ⟨hks, -, -, -, -, hms⟩ := extractScan_spec hs
    obtain ⟨-, -, -, -, -, hmt⟩ := extractScan_spec ht
    have hjk : j < (extractScan s).k := hj.trans_le (zext32_toNat_le _)
    calc memRead .mout (extractScan s).mOut j = groupAt s.car j := by rw [hms, if_pos hjk]
      _ = groupAt t.car j := h.groupAt_eq (by omega)
      _ = memRead .mout (extractScan t).mOut j := by rw [hmt, if_pos (hk ▸ hjk)]

/-- Settles O53, command by command: each reads its inputs alone. -/
theorem commandsIgnoreEarlierResults : Obligations.CommandsIgnoreEarlierResults := by
  intro i s t hs ht hparams hcar hmin hslot hconfig hlen
  have h : SameInputs s t := ⟨hparams, hcar, hmin, hslot, hconfig, hlen⟩
  have hv : (t.slot.toNat < t.params.cap) = (s.slot.toNat < s.params.cap) := by rw [hslot, hparams]
  cases i with
  | embed =>
    obtain ⟨u, v, hu, hv, hst, hb, hc⟩ := h.execEmbed_results
    exact ⟨u, v, hu, hv, hst, hc, nofun, fun _ => hb⟩
  | extract =>
    obtain ⟨hst, ho, hm⟩ := h.extracted_results ((bufWf_iff .mout s).mp (hs.buffers .mout)).1
      ((bufWf_iff .mout t).mp (ht.buffers .mout)).1
    exact ⟨_, _, execExtract_eq s, execExtract_eq t, hst, hcar, fun _ => ⟨ho, hm⟩, nofun⟩
  | wrbit b =>
    by_cases hc : s.slot.toNat < s.params.cap
    · refine ⟨_, _, execWrbit_valid b hc, execWrbit_valid b (hv ▸ hc), rfl, fun a ha => ?_, nofun, nofun⟩
      rw [← hslot]
      exact h.memRead_lsbWrite_eq hc b ha
    · exact ⟨_, _, execWrbit_invalid b (Nat.le_of_not_lt hc), execWrbit_invalid b (Nat.le_of_not_lt (hv ▸ hc)), rfl,
        hcar, nofun, nofun⟩
  | rdbit =>
    by_cases hc : s.slot.toNat < s.params.cap
    · refine ⟨_, _, execRdbit_valid hc, execRdbit_valid (hv ▸ hc), ?_, hcar, nofun, nofun⟩
      rw [complete_status, complete_status, ← hslot, h.lsbRead_eq hc]
    · exact ⟨_, _, execRdbit_invalid (Nat.le_of_not_lt hc), execRdbit_invalid (Nat.le_of_not_lt (hv ▸ hc)), rfl,
        hcar, nofun, nofun⟩

/-! ## The sequencer's registers between commands (10_state.md R31) -/

/-- Two states that differ at most in the sequencer's registers other than MODE. -/
def SameButSeq (t u : State) : Prop := u = t.setSeq u.seq ∧ u.seq.mode = t.seq.mode

theorem sameButSeq_setSeq {s : State} {q : Seq} (h : q.mode = s.seq.mode) : SameButSeq s (s.setSeq q) := ⟨rfl, h⟩

theorem SameButSeq.refl (s : State) : SameButSeq s s := ⟨rfl, rfl⟩

/-- A register reads the same whatever the sequencer's registers hold (10_state.md R31). -/
@[simp] theorem readReg_setSeq (s : State) (q : Seq) (r : HostReg) : readReg (s.setSeq q) r = readReg s r := by
  cases r <;> rfl

@[simp] theorem bufOf_setSeq (b : Buffer) (s : State) (q : Seq) : bufOf b (s.setSeq q) = bufOf b s := by
  cases b <;> rfl

/-- An access that takes effect has the same effect whatever the sequencer's registers hold. -/
theorem portOp_setSeq (o : PortOp) {s : State} {q : Seq} (h : q.mode = s.seq.mode) :
    SameButSeq (portOp o s) (portOp o (s.setSeq q)) := by
  cases o with
  | readReg r => simp only [portOp, readReg_setSeq]; exact ⟨rfl, h⟩
  | readBuf b a => simp only [portOp, bufOf_setSeq]; exact ⟨rfl, h⟩
  | writeBuf b a v => cases b <;> exact ⟨rfl, h⟩
  | writeReg r v =>
    cases r
    case cmd => exact ⟨rfl, rfl⟩
    all_goals exact ⟨rfl, h⟩

/-- A HOST access that is no bus error has the same effect whatever the sequencer's registers hold. -/
theorem hostAccess_setSeq {a : HostAccess} {s t : State} {q : Seq} (h : q.mode = s.seq.mode)
    (ht : hostAccess a s = .next t) : ∃ u, hostAccess a (s.setSeq q) = .next u ∧ SameButSeq t u := by
  simp only [hostAccess, setSeq_params] at ht ⊢
  cases hsel : selectAccess s.params a with
  | ok o => rw [hsel] at ht; cases ht; exact ⟨_, rfl, portOp_setSeq o h⟩
  | error e => rw [hsel] at ht; cases ht

/-- The next thing the HOST does has the same effect whatever the sequencer's registers hold. -/
theorem hostStmt_setSeq {st : HostStmt} {rest : List HostStmt} {s t : State} {q : Seq} (h : q.mode = s.seq.mode)
    (ht : hostStmt st rest s = .next t) : ∃ u, hostStmt st rest (s.setSeq q) = .next u ∧ SameButSeq t u := by
  cases st with
  | wait =>
    simp only [hostStmt, setSeq_status] at ht ⊢
    by_cases hb : statusBusy s.status = true <;> simp only [hb] at ht ⊢ <;> cases ht <;> exact ⟨_, rfl, rfl, h⟩
  | access a =>
    simp only [hostStmt, setSeq_status] at ht ⊢
    by_cases hb : (statusBusy s.status && !isStatusRead a) = true <;> simp only [hb] at ht ⊢
    · cases ht; exact ⟨_, rfl, rfl, h⟩
    · exact hostAccess_setSeq (s := s.setHostQueue rest) h ht

/-- A HOST turn has the same effect whatever the sequencer's registers hold. -/
theorem hostTurn_setSeq {s t : State} {q : Seq} (h : q.mode = s.seq.mode) (ht : hostTurn s = .next t) :
    ∃ u, hostTurn (s.setSeq q) = .next u ∧ SameButSeq t u := by
  simp only [hostTurn, setSeq_held, setSeq_status, setSeq_hostQueue] at ht ⊢
  cases hh : s.held with
  | some a =>
    by_cases hb : statusBusy s.status = true <;> simp only [hh, hb] at ht ⊢
    · cases ht; exact ⟨_, rfl, sameButSeq_setSeq h⟩
    · exact hostAccess_setSeq (s := s.setHeld none) h ht
  | none =>
    cases hq : s.hostQueue with
    | nil => simp only [hh, hq] at ht ⊢; cases ht; exact ⟨_, rfl, sameButSeq_setSeq h⟩
    | cons st rest => simp only [hh, hq] at ht ⊢; exact hostStmt_setSeq h ht

/-- A command run whole has the same result whatever the sequencer's registers hold. -/
theorem exec_setSeq (i : Instr) (s : State) (q : Seq) :
    ∃ t u, exec i s = .next t ∧ exec i (s.setSeq q) = .next u ∧ SameButSeq t u := by
  cases i with
  | embed =>
    obtain ⟨hl, k⟩ | ⟨hl, ho, hp, k⟩ | ⟨hl, hs, k⟩ := execEmbed_cases s
    · exact ⟨_, _, k, execEmbed_tooLong (s := s.setSeq q) hl, rfl, rfl⟩
    · exact ⟨_, _, k, execEmbed_overflow (s := s.setSeq q) hl ho hp, rfl, rfl⟩
    · exact ⟨_, _, k, execEmbed_succeeds (s := s.setSeq q) hl hs, rfl, rfl⟩
  | extract => exact ⟨_, _, execExtract_eq s, execExtract_eq (s.setSeq q), rfl, rfl⟩
  | wrbit b =>
    by_cases hv : s.slot.toNat < s.params.cap
    · exact ⟨_, _, execWrbit_valid b hv, execWrbit_valid (s := s.setSeq q) b hv, rfl, rfl⟩
    · have hv := Nat.le_of_not_lt hv
      exact ⟨_, _, execWrbit_invalid b hv, execWrbit_invalid (s := s.setSeq q) b hv, rfl, rfl⟩
  | rdbit =>
    by_cases hv : s.slot.toNat < s.params.cap
    · exact ⟨_, _, execRdbit_valid hv, execRdbit_valid (s := s.setSeq q) hv, rfl, rfl⟩
    · have hv := Nat.le_of_not_lt hv
      exact ⟨_, _, execRdbit_invalid hv, execRdbit_invalid (s := s.setSeq q) hv, rfl, rfl⟩

/-- A command word, issued and run, has the same result whatever the sequencer's registers held. -/
theorem execWord_setSeq (w : Word) (s : State) (q : Seq) :
    ∃ t u, execWord w s = .next t ∧ execWord w (s.setSeq q) = .next u ∧ SameButSeq t u := by
  unfold execWord
  cases decode w with
  | illegal why => exact ⟨_, _, rfl, rfl, rfl, rfl⟩
  | command i => exact exec_setSeq i (issue w s) { q with cw := w, mode := .dec }

/-- Between commands a step is the same whatever the sequencer's registers hold, whichever turn comes next. -/
theorem step_setSeq {s t : State} {q : Seq} (hs : s.seq.mode = .idle) (hq : q.mode = .idle) (ht : step s = .next t) :
    ∃ u, step (s.setSeq q) = .next u ∧ SameButSeq t u := by
  have hmode : q.mode = s.seq.mode := hq.trans hs.symm
  unfold step at ht ⊢
  simp only [setSeq_turns]
  cases hts : s.turns with
  | nil =>
    simp only [hts, commandTurn, hs, setSeq_seq, hq] at ht ⊢
    exact hostTurn_setSeq hmode ht
  | cons x ts =>
    simp only [hts] at ht ⊢
    cases x with
    | host => exact hostTurn_setSeq (s := s.setTurns ts) hmode ht
    | seq =>
      simp only [seqStep, setTurns_seq, hs, setSeq_seq, hq] at ht ⊢
      cases ht; exact ⟨_, rfl, rfl, hmode⟩
    | reset => cases ht; exact ⟨_, rfl, SameButSeq.refl _⟩
    | resetInStep =>
      simp only [abandonStep_idle (s := s.setTurns ts) hs, abandonStep_idle (s := (s.setSeq q).setTurns ts) hq] at ht ⊢
      cases ht; exact ⟨_, rfl, SameButSeq.refl _⟩

/-- Settles O54: a step between commands, and a command word. -/
theorem sequencerRegistersAreUnobservable : Obligations.SequencerRegistersAreUnobservable := by
  intro s q w hs hq
  exact ⟨fun t => step_setSeq hs hq, execWord_setSeq w s q⟩

end Sys2Proof.Machine
end

section
/-! Proofs for 20_memory.md R43 to R47: the slot indexer and the bit plane. -/

namespace Sys2Proof.Machine

/-! ## The slot indexer (R43, R44) -/

/-- The row of a slot is the row of its pixel. -/
theorem indexOf_row (p : Params) (s : Nat) : (indexOf p s).row = s / 3 / p.cols := by
  rw [Nat.div_div_eq_div_mul, Nat.mul_comm]; rfl

/-- The pixel of a slot, in raster order, is the slot's triple; no bound on the slot is needed. -/
theorem indexOf_pixel (p : Params) (s : Nat) : (indexOf p s).row * p.cols + (indexOf p s).col = s / 3 := by
  rw [indexOf_row]; exact Nat.div_add_mod' (s / 3) p.cols

/-- `Slot` inverts `Index`. -/
theorem slotOf_indexOf (p : Params) (s : Nat) : slotOf p (indexOf p s) = s := by
  rw [slotOf, indexOf_pixel]; exact Nat.div_add_mod' s 3

theorem inCarrier_iff (p : Params) (c : Coord) :
    c.inCarrier p = true ↔ c.row < p.rows ∧ c.col < p.cols ∧ c.ch < 3 := by
  simp [Coord.inCarrier, and_assoc]

/-- A slot of the carrier has a coordinate of the carrier. -/
theorem indexOf_inCarrier {p : Params} {s : Nat} (h : s < p.cap) : (indexOf p s).inCarrier p = true := by
  have hpixel : s / 3 < p.rows * p.cols := Nat.div_lt_of_lt_mul (by rwa [Nat.mul_comm 3])
  have hcols : 0 < p.cols := Nat.pos_of_mul_pos_left (Nat.zero_lt_of_lt hpixel)
  rw [inCarrier_iff, indexOf_row]
  exact ⟨(Nat.div_lt_iff_lt_mul hcols).mpr hpixel, Nat.mod_lt _ hcols, Nat.mod_lt _ (by decide)⟩

/-- A coordinate of the carrier has a slot below CAP. -/
theorem slotOf_lt_cap {p : Params} {c : Coord} (h : c.inCarrier p = true) : slotOf p c < p.cap := by
  obtain ⟨hrow, hcol, hch⟩ := (inCarrier_iff p c).mp h
  have hpixel : c.row * p.cols + c.col < p.rows * p.cols :=
    calc c.row * p.cols + c.col < (c.row + 1) * p.cols := by rw [Nat.succ_mul]; omega
      _ ≤ p.rows * p.cols := Nat.mul_le_mul_right _ hrow
  rw [slotOf, Params.cap]; omega

/-- `Index` inverts `Slot` on the coordinates of the carrier. -/
theorem indexOf_slotOf {p : Params} {c : Coord} (h : c.inCarrier p = true) : indexOf p (slotOf p c) = c := by
  obtain ⟨-, hcol, hch⟩ := (inCarrier_iff p c).mp h
  have hpixel : slotOf p c / 3 = p.cols * c.row + c.col := by rw [slotOf, Nat.mul_comm p.cols]; omega
  have hrow : (indexOf p (slotOf p c)).row = c.row := by
    rw [indexOf_row, hpixel, Nat.mul_add_div (Nat.zero_lt_of_lt hcol), Nat.div_eq_of_lt hcol, Nat.add_zero]
  have hcol' : (indexOf p (slotOf p c)).col = c.col := by
    rw [indexOf, hpixel, Nat.mul_add_mod, Nat.mod_eq_of_lt hcol]
  have hch' : (indexOf p (slotOf p c)).ch = c.ch := by
    rw [indexOf, slotOf, Nat.mul_add_mod', Nat.mod_eq_of_lt hch]
  exact congr (congr (congrArg Coord.mk hrow) hcol') hch'

/-- Settles O9: each of the two functions inverts the other, and the pixel of a slot is its triple. -/
theorem slotIndexerIsABijection : Obligations.SlotIndexerIsABijection := by
  intro p
  refine ⟨fun s hs => ⟨indexOf_inCarrier hs, slotOf_indexOf p s, (indexOf_pixel p s).symm, rfl⟩,
    fun c hc => ⟨slotOf_lt_cap hc, indexOf_slotOf hc⟩, fun m s _ hs => ?_, fun h0 c => ?_⟩
  · rw [indexOf_pixel]; omega
  · refine Bool.eq_false_iff.mpr fun hc => ?_
    exact absurd (slotOf_lt_cap hc) (by omega)

/-! ## The bit plane (R46, R47) -/

/-- Writing the current bit of a slot leaves every sample; no canonical form is needed. -/
theorem memRead_lsbWrite_lsbRead (m : Memory) (s a : Nat) :
    memRead .car (lsbWrite m s (lsbRead m s)) a = memRead .car m a := by
  rw [memRead_lsbWrite]
  split_ifs with e
  · rw [e]; exact withLsb_self _
  · rfl

/-- Settles O10: what each sample reads after an LsbWrite, and that the write keeps the canonical form. -/
theorem lsbWriteSetsOneBit : Obligations.LsbWriteSetsOneBit := by
  refine ⟨fun m s b => ⟨?_, ?_, fun a ha => ?_, rfl, memRead_lsbWrite_lsbRead m s⟩,
    fun m s b hm => ⟨wf_lsbWrite hm s b, (lsbWrite_lsbRead hm s).2⟩⟩
  · rw [lsbRead_lsbWrite, if_pos rfl]
  · rw [memRead_lsbWrite, if_pos rfl, withLsb_toNat]
  · rw [memRead_lsbWrite, if_neg ha]

end Sys2Proof.Machine
end

section
/-! Proofs for 20_memory.md R45 and R49 to R56: what a HOST access and a HOST turn do, each case said once. -/

namespace Sys2Proof.Machine

/-! ## Byte writes (R45, R50) -/

/-- A byte write in range of CAR or MIN replaces the byte (R49, R50). -/
theorem hostAccess_bufWrite (s : State) {b : Buffer} {a : Nat} (v : Byte) (hb : b ≠ .mout)
    (h : a < bufSize s.params b) :
    hostAccess (.bufWrite b 8 a v) s = .next (setBuf b s (memWrite (bufOf b s) a v)) := by
  obtain ⟨-, -, hs⟩ | ⟨hw | ha, -⟩ := selectByte_cases s.params b 8 a
  · simp only [hostAccess, selectAccess, hb, if_false, hs, portOp]
  · exact absurd rfl hw
  · exact absurd h (Nat.not_lt.mpr ha)

@[simp] theorem setBuf_params (b : Buffer) (s : State) (m : Memory) : (setBuf b s m).params = s.params := by
  cases b <;> rfl

/-- Every byte of every buffer after one byte is written. -/
theorem memRead_setBuf_memWrite (b c : Buffer) (s : State) (a d : Nat) (v : Byte) :
    memRead c (bufOf c (setBuf b s (memWrite (bufOf b s) a v))) d =
      if c = b ∧ d = a then v else memRead c (bufOf c s) d := by
  rw [bufOf_setBuf]
  by_cases hc : c = b
  · subst hc; simp only [if_true, memRead_memWrite, true_and]
  · simp only [hc, if_false, false_and]

/-- Settles O12: the write, the read of the written byte, and the frame. -/
theorem hostByteWriteReadsBack : Obligations.HostByteWriteReadsBack := by
  intro s b a v hb ha
  refine ⟨_, hostAccess_bufWrite s v hb ha, ?_, fun c d hcd => ?_, ?_⟩
  · rw [hostAccess_bufRead _ (by rwa [setBuf_params]), memRead_setBuf_memWrite, if_pos ⟨rfl, rfl⟩]; rfl
  · rw [memRead_setBuf_memWrite, if_neg hcd]
  · cases b with
    | car => rfl
    | min => rfl
    | mout => exact absurd rfl hb

/-! ## Bus errors (R55) -/

/-- The port admits exactly the accesses that are no bus error. -/
theorem selectAccess_cases (p : Params) (a : HostAccess) :
    (¬ isBusError p a ∧ ∃ o, selectAccess p a = .ok o) ∨ (isBusError p a ∧ ∃ e, selectAccess p a = .error e) := by
  cases a with
  | regRead w off =>
    obtain ⟨hw, h4, hoff, r, hr⟩ | ⟨hbad, e, he⟩ := selectReg_cases w off
    · exact .inl ⟨by simp only [isBusError]; omega, .readReg r, by simp only [selectAccess, hr]⟩
    · exact .inr ⟨hbad, e, by simp only [selectAccess, he]⟩
  | regWrite w off v =>
    obtain ⟨hw, h4, hoff, r, hr⟩ | ⟨hbad, e, he⟩ := selectReg_cases w off
    · exact .inl ⟨by simp only [isBusError]; omega, .writeReg r v, by simp only [selectAccess, hr]⟩
    · exact .inr ⟨hbad, e, by simp only [selectAccess, he]⟩
  | bufRead b w n =>
    obtain ⟨hw, hn, hs⟩ | ⟨hbad, e, he⟩ := selectByte_cases p b w n
    · exact .inl ⟨by simp only [isBusError]; omega, .readBuf b n, by simp only [selectAccess, hs]⟩
    · exact .inr ⟨hbad, e, by simp only [selectAccess, he]⟩
  | bufWrite b w n v =>
    by_cases hb : b = .mout
    · exact .inr ⟨.inl hb, .moutWrite, by simp only [selectAccess, hb, if_true]⟩
    · obtain ⟨hw, hn, hs⟩ | ⟨hbad, e, he⟩ := selectByte_cases p b w n
      · exact .inl ⟨by simp only [isBusError, hb, false_or]; omega, .writeBuf b n v,
          by simp only [selectAccess, hb, if_false, hs]⟩
      · exact .inr ⟨.inr hbad, e, by simp only [selectAccess, hb, if_false, he]⟩

/-- An access takes effect, or is a bus error and is refused. -/
theorem hostAccess_cases (a : HostAccess) (s : State) :
    (¬ isBusError s.params a ∧ ∃ t, hostAccess a s = .next t) ∨
    (isBusError s.params a ∧ ∃ e, hostAccess a s = .refused (.busError e)) := by
  obtain ⟨hok, o, ho⟩ | ⟨hbad, e, he⟩ := selectAccess_cases s.params a
  · exact .inl ⟨hok, portOp o s, by simp only [hostAccess, ho]⟩
  · exact .inr ⟨hbad, e, by simp only [hostAccess, he]⟩

/-- Settles O18: of the two outcomes of an access, each excludes the other's premise. -/
theorem busErrorsAreRefused : Obligations.BusErrorsAreRefused := by
  intro a s
  obtain ⟨hok, ht⟩ | ⟨hbad, he⟩ := hostAccess_cases a s
  · exact ⟨fun hbad => absurd hbad hok, fun _ => ht⟩
  · exact ⟨fun _ => he, fun hok => absurd hbad hok⟩

/-! ## Registers that ignore writes (R56) -/

/-- A write to a read-only register changes nothing. -/
theorem writeReg_readOnly {r : HostReg} (h : r ∈ readOnlyRegs) (v : Word) (s : State) : writeReg r v s = s := by
  cases r
  case cmd | slot | config | msgInLen => exact absurd h (by decide)
  all_goals rfl

/-- Settles O19: the write or the read of each register named. -/
theorem readOnlyRegistersIgnoreWrites : Obligations.ReadOnlyRegistersIgnoreWrites := by
  intro s v
  refine ⟨fun r hr => ?_, hostAccess_regWrite s .config v, hostAccess_regRead s .config, hostAccess_regRead s .cmd⟩
  rw [hostAccess_regWrite, writeReg_readOnly hr]

/-! ## The HOST's turn (R51, R52) -/

/-- With BUSY = 0 the held access takes effect. -/
theorem hostTurn_held {s : State} {a : HostAccess} (hb : statusBusy s.status = false) (hh : s.held = some a) :
    hostTurn s = hostAccess a (s.setHeld none) := by
  simp [hostTurn, hh, hb]

/-- With BUSY = 1 a HOST whose access is held does nothing. -/
theorem hostTurn_held_busy {s : State} {a : HostAccess} (hb : statusBusy s.status = true) (hh : s.held = some a) :
    hostTurn s = .next s := by
  simp [hostTurn, hh, hb]

/-- With nothing held the HOST does the next thing of its program. -/
theorem hostTurn_queue {s : State} {st : HostStmt} {rest : List HostStmt} (hh : s.held = none)
    (hq : s.hostQueue = st :: rest) : hostTurn s = hostStmt st rest s := by
  simp only [hostTurn, hh, hq]

/-- A HOST with nothing held and an empty program does nothing (log entry 17). -/
theorem hostTurn_empty {s : State} (hh : s.held = none) (hq : s.hostQueue = []) : hostTurn s = .next s := by
  simp only [hostTurn, hh, hq]

/-- An access that need not wait takes effect. -/
theorem hostStmt_access {s : State} {a : HostAccess} (rest : List HostStmt)
    (h : statusBusy s.status = false ∨ isStatusRead a = true) :
    hostStmt (.access a) rest s = hostAccess a (s.setHostQueue rest) := by
  obtain h | h := h <;> simp [hostStmt, h]

/-- With BUSY = 1 an access that is no STATUS read is held. -/
theorem hostStmt_access_busy {s : State} {a : HostAccess} (rest : List HostStmt) (hb : statusBusy s.status = true)
    (ha : isStatusRead a = false) :
    hostStmt (.access a) rest s = .next ((s.setHostQueue rest).setHeld (some a)) := by
  simp [hostStmt, hb, ha]

/-- A poll of WAIT always completes (30_encoding.md R69). -/
theorem hostStmt_wait_answers (rest : List HostStmt) (s : State) : ∃ t, hostStmt .wait rest s = .next t := by
  unfold hostStmt
  simp only
  split_ifs <;> exact ⟨_, rfl⟩

/-- A listed HOST turn is the HOST's (log entry 6). -/
theorem step_host {s : State} {ts : List Turn} (h : s.turns = .host :: ts) : step s = hostTurn (s.setTurns ts) := by
  simp only [step, h]

/-- With no turn listed and the sequencer idle the HOST moves (log entry 6). -/
theorem step_idle {s : State} (h : s.turns = []) (hm : s.seq.mode = .idle) : step s = hostTurn s := by
  simp only [step, h, commandTurn, hm]

/-- Settles O14: the step is the HOST's turn, which performs the held access, else the first of the program. -/
theorem hostAccessesTakeEffectInOrder : Obligations.HostAccessesTakeEffectInOrder := by
  intro s hts hm hb
  rw [step_idle hts hm]
  refine ⟨fun a hh => hostTurn_held hb hh, fun a rest hh hq => ?_⟩
  rw [hostTurn_queue hh hq, hostStmt_access rest (.inl hb)]; rfl

/-- Settles O15: the four cases of the HOST's turn. -/
theorem accessesAreHeldWhileBusy : Obligations.AccessesAreHeldWhileBusy := by
  intro s ts hts
  rw [step_host hts]
  refine ⟨fun a rest hb hh hq ha => ?_, fun rest hb hh hq => ?_, fun a hb hh => hostTurn_held_busy hb hh,
    fun a hb hh => hostTurn_held hb hh⟩
  · have hread : isStatusRead a = false := Bool.eq_false_iff.mpr (mt (isStatusRead_iff a).mp ha)
    exact (hostTurn_queue (s := s.setTurns ts) hh hq).trans (hostStmt_access_busy rest hb hread)
  · rw [hostTurn_queue (s := s.setTurns ts) hh hq, hostStmt_access rest (.inr rfl)]
    exact hostAccess_status _

/-- A HOST turn completes, or refuses the bus error of the held access, else of the next one of the program. -/
theorem hostTurn_cases (s : State) :
    (∃ t, hostTurn s = .next t) ∨
    (∃ e a, hostTurn s = .refused (.busError e) ∧ isBusError s.params a
      ∧ (s.held = some a ∨ ∃ rest, s.hostQueue = .access a :: rest)) := by
  cases hh : s.held with
  | some a =>
    by_cases hb : statusBusy s.status = true
    · exact .inl ⟨s, hostTurn_held_busy hb hh⟩
    · rw [hostTurn_held (Bool.eq_false_iff.mpr hb) hh]
      obtain ⟨-, ht⟩ | ⟨hbad, e, he⟩ := hostAccess_cases a (s.setHeld none)
      · exact .inl ht
      · exact .inr ⟨e, a, he, hbad, .inl rfl⟩
  | none =>
    cases hq : s.hostQueue with
    | nil => exact .inl ⟨s, hostTurn_empty hh hq⟩
    | cons st rest =>
      rw [hostTurn_queue hh hq]
      cases st with
      | wait => exact .inl (hostStmt_wait_answers rest s)
      | access a =>
        by_cases hw : statusBusy s.status = false ∨ isStatusRead a = true
        · rw [hostStmt_access rest hw]
          obtain ⟨-, ht⟩ | ⟨hbad, e, he⟩ := hostAccess_cases a (s.setHostQueue rest)
          · exact .inl ht
          · exact .inr ⟨e, a, he, hbad, .inr ⟨rest, rfl⟩⟩
        · simp only [not_or, Bool.not_eq_true, Bool.not_eq_false] at hw
          exact .inl ⟨_, hostStmt_access_busy rest hw.1 hw.2⟩

end Sys2Proof.Machine
end

section
/-! Proofs for 20_memory.md R40, R46, R55 and R56 over whole steps: that no step faults from the invariant, and which
agent writes what. -/

namespace Sys2Proof.Machine

/-! ## No fault from the invariant (R46, R47; 60_exceptions.md R126) -/

/-- An EMB step touches bytes inside their buffers: LIM is at most CAP and N at most MSG_BUF_BYTES. -/
theorem embStep_answers {s : State} (h : SeqInRange s) : ∃ t, embStep s = .next t := by
  obtain ⟨-, hlim, hn, -, -⟩ := h
  unfold embStep
  split_ifs with hidx hcap hbuf
  · omega
  · omega
  · exact ⟨_, rfl⟩
  · exact ⟨_, rfl⟩

/-- An EXT step touches bytes inside their buffers: a group that ends below CAP is one MOUT has a byte for. -/
theorem MachineInv.extStep_answers {s : State} (h : MachineInv s) (hm : s.seq.mode = .ext) :
    ∃ t, Machine.extStep s = .next t := by
  obtain ⟨hidx, -⟩ := h.seqRange
  obtain ⟨haccn, houtk, -⟩ := h.ext hm
  unfold Machine.extStep extBit
  split_ifs with hend hpast h7 hstop hfull
  · exact ⟨_, rfl⟩
  · omega
  · exact ⟨_, rfl⟩
  · rw [Params.outBufBytes] at hfull; omega
  · exact ⟨_, rfl⟩
  · exact ⟨_, rfl⟩

theorem MachineInv.seqStep_answers {s : State} (h : MachineInv s) : ∃ t, Machine.seqStep s = .next t := by
  cases hm : s.seq.mode <;> simp only [Machine.seqStep, hm]
  case idle => exact ⟨s, rfl⟩
  case dec =>
    obtain ⟨t, ht, -⟩ := decodeStep_answers s
    exact ⟨t, ht⟩
  case emb => exact embStep_answers h.seqRange
  case ext => exact h.extStep_answers hm

/-- With no turn listed and the sequencer busy, the executing command's turn completes. -/
theorem MachineInv.commandTurn_answers {s : State} (h : MachineInv s) (hm : s.seq.mode ≠ .idle) :
    ∃ t, commandTurn s = .next t := by
  unfold commandTurn
  cases hmode : s.seq.mode with
  | idle => exact absurd hmode hm
  | dec =>
    cases decode s.seq.cw with
    | illegal why => exact ⟨_, rfl⟩
    | command i =>
      obtain ⟨t, -, -, -, -, ht, -⟩ := exec_completes i s
      exact ⟨t, ht⟩
  | emb => exact h.seqStep_answers
  | ext => exact h.seqStep_answers

/-- Settles O58, turn by turn: only the HOST's can be refused. -/
theorem noFaultFromTheInvariant : Obligations.NoFaultFromTheInvariant := by
  intro s h
  cases hts : s.turns with
  | nil =>
    by_cases hm : s.seq.mode = .idle
    · have hv : mover s = .host := by simp only [mover, hts, hm, if_true]
      rw [step_idle hts hm]
      obtain ht | ⟨e, a, he, hbad, ha⟩ := hostTurn_cases s
      · exact .inl ht
      · exact .inr ⟨e, a, he, hv, hbad, ha⟩
    · exact .inl (by simpa only [step, hts] using h.commandTurn_answers hm)
  | cons x ts =>
    cases x with
    | host =>
      have hv : mover s = .host := by simp only [mover, hts]
      rw [step_host hts]
      obtain ht | ⟨e, a, he, hbad, ha⟩ := hostTurn_cases (s.setTurns ts)
      · exact .inl ht
      · exact .inr ⟨e, a, he, hv, hbad, ha⟩
    | seq =>
      have hturn : MachineInv (s.setTurns ts) := h.hostSide s.hostQueue s.hostGot s.held ts
      exact .inl (by simpa only [step, hts] using hturn.seqStep_answers)
    | reset => exact .inl ⟨_, by simp only [step, hts]; rfl⟩
    | resetInStep => exact .inl ⟨_, by simp only [step, hts]; rfl⟩

/-! ## Who writes what (R40, R56; 70_reset_and_hazards.md R140, R141) -/

/-- No HOST turn writes MOUT (R40). -/
theorem hostTurn_mOut {s t : State} (h : hostTurn s = .next t) : t.mOut = s.mOut := by
  obtain ⟨q, g, hd, rfl⟩ | ⟨-, q, hd, ⟨r, v, rfl⟩ | ⟨b, n, v, hb, -, rfl⟩⟩ := hostTurn_next h
  · rfl
  · obtain k | k | k | k | k := writeReg_cases r v { s with hostQueue := q, held := hd } <;> rw [k] <;> rfl
  · cases b with
    | car => rfl
    | min => rfl
    | mout => exact absurd rfl hb

/-- A reset inside a step, at its turn, finds CAR and MOUT as that step leaves them (log entry 12). -/
theorem abandonStep_setTurns {s u : State} (ts : List Turn) (h : seqStep s = .next u) :
    (abandonStep (s.setTurns ts)).car = u.car ∧ (abandonStep (s.setTurns ts)).mOut = u.mOut := by
  have hstep : seqStep (s.setTurns ts) = .next (u.setTurns ts) := by rw [seqStep_setTurns, h]; rfl
  rw [abandonStep_of_next hstep]; exact ⟨rfl, rfl⟩

/-- What a reset leaves of the buffers: MIN, and CAR and MOUT between two steps, with the sequencer idle, or as the
abandoned step leaves them. -/
def ResetWrites (s t : State) : Prop :=
  t.mIn = s.mIn ∧ (s.turns.head? = some .reset ∨ s.seq.mode = .idle → t.car = s.car ∧ t.mOut = s.mOut) ∧
    ∀ u, s.turns.head? = some .resetInStep → seqStep s = .next u → t.car = u.car ∧ t.mOut = u.mOut

theorem resetOp_writes {s : State} {ts : List Turn} (hts : s.turns = .reset :: ts) :
    ResetWrites s (resetOp (s.setTurns ts)) :=
  ⟨rfl, fun _ => ⟨rfl, rfl⟩, fun _ k _ => by rw [hts] at k; cases k⟩

theorem resetOp_abandonStep_writes {s : State} {ts : List Turn} (hts : s.turns = .resetInStep :: ts) :
    ResetWrites s (resetOp (abandonStep (s.setTurns ts))) := by
  refine ⟨?_, fun hr => ?_, fun u _ hu => abandonStep_setTurns ts hu⟩
  · rw [abandonStep_eq]; rfl
  · obtain k | hm := hr
    · rw [hts] at k; cases k
    · rw [abandonStep_idle (s := s.setTurns ts) hm]; exact ⟨rfl, rfl⟩

/-- A step whose mover is the HOST is a HOST turn. -/
theorem hostTurn_of_mover {s t : State} (h : step s = .next t) (hm : mover s = .host) :
    ∃ ts, hostTurn { s with turns := ts } = .next t := by
  obtain ⟨-, hh⟩ | ⟨hv, -⟩ | ⟨hv, -⟩ | ⟨hv, -⟩ | ⟨hv, -⟩ | ⟨hv, -⟩ := step_next h
  · exact hh
  all_goals exact nomatch hm.symm.trans hv

/-- A step whose mover is the sequencer has the sequencer's frame, up to the turn it consumes. -/
theorem seqFrame_of_mover {s t : State} (h : step s = .next t) (hm : mover s = .seq) :
    ∃ ts, SeqFrame { s with turns := ts } t := by
  obtain ⟨hv, -⟩ | ⟨-, -, -, i, -, he⟩ | ⟨-, -, -, -, rfl⟩ | ⟨-, ts, hq⟩ | ⟨hv, -⟩ | ⟨hv, -⟩ := step_next h
  · exact nomatch hm.symm.trans hv
  · exact ⟨s.turns, exec_frame he⟩
  · exact ⟨s.turns, (SeqFrame.refl s).complete _ _ _ _⟩
  · exact ⟨ts, seqStep_frame hq⟩
  all_goals exact nomatch hm.symm.trans hv

/-- A step whose mover is reset writes of the buffers only what reset may. -/
theorem resetWrites_of_mover {s t : State} (h : step s = .next t) (hm : mover s = .reset) : ResetWrites s t := by
  obtain ⟨hv, -⟩ | ⟨hv, -⟩ | ⟨hv, -⟩ | ⟨hv, -⟩ | ⟨-, ts, hts, rfl⟩ | ⟨-, ts, hts, rfl⟩ := step_next h
  iterate 4 exact nomatch hm.symm.trans hv
  · exact resetOp_writes hts
  · exact resetOp_abandonStep_writes hts

/-- Settles O51: the frame of the agent whose turn it is. -/
theorem agentsWriteOnlyTheirOwn : Obligations.AgentsWriteOnlyTheirOwn := by
  intro s t h
  refine ⟨fun hm => ?_, fun hm => ?_, resetWrites_of_mover h⟩
  · obtain ⟨ts, hh⟩ := hostTurn_of_mover h hm
    obtain ⟨-, hlen, hbits⟩ := hostTurn_frame hh
    have hmout := hostTurn_mOut hh
    exact ⟨hmout, hlen, hbits⟩
  · obtain ⟨ts, hf⟩ := seqFrame_of_mover h hm
    exact ⟨hf.mIn, hf.slot, hf.config, hf.msgInLen, hf.held, hf.hostQueue, hf.hostGot⟩

end Sys2Proof.Machine
end

section
/-! Proofs for 30_encoding.md R60 to R69: the decoder against the encoder, the issue and the decode step of a command
word, sequencer turns, and host assembly. -/

namespace Sys2Proof.Machine

/-! ## Decode and encode (R60 to R63) -/

/-- Every command decodes from its own word (R60, R62). -/
theorem decode_encode (i : Instr) : decode (encode i) = .command i := by
  cases i with
  | wrbit b => cases b <;> rfl
  | embed | extract | rdbit => rfl

/-- The words of the commands are the five of R63. -/
theorem encode_mem_commandWords (i : Instr) :
    encode i ∈ [(0x00000001 : Word), 0x00000002, 0x00000003, 0x00000013, 0x00000004] := by
  cases i with
  | wrbit b => cases b <;> decide
  | embed | extract | rdbit => decide

/-- Settles O2: `encode_of_decode` is the one direction, `decode_encode` the other. -/
theorem decodeInvertsEncode : Obligations.DecodeInvertsEncode := by
  intro i w _
  exact ⟨encode_of_decode, fun hw => hw ▸ decode_encode i⟩

/-- Settles O1: each of the five words is an encoding, and a word that decodes to a command is one of them. -/
theorem decodeAcceptsExactlyTheFiveWords : Obligations.DecodeAcceptsExactlyTheFiveWords := by
  intro w
  refine ⟨fun hw => hw ▸ decode_encode .embed, fun hw => hw ▸ decode_encode .extract,
    fun hw => hw ▸ decode_encode (.wrbit false), fun hw => hw ▸ decode_encode (.wrbit true),
    fun hw => hw ▸ decode_encode .rdbit, fun hw => ?_⟩
  cases hd : decode w with
  | illegal why => exact ⟨why, rfl⟩
  | command i => exact absurd (encode_of_decode hd ▸ encode_mem_commandWords i) hw

/-- Settles O3: the words written out are the encodings. -/
theorem writtenOutWordsDecode : Obligations.WrittenOutWordsDecode :=
  ⟨decode_encode .embed, decode_encode .extract, decode_encode (.wrbit true), decode_encode (.wrbit false),
    decode_encode .rdbit⟩

/-! ## The decode step (R64 to R67) -/

/-- The opcodes of the commands are the four of R62. -/
theorem opcode_mem (i : Instr) : BitVec.ofNat 4 (opcode i) ∈ [0x1, 0x2, 0x3, 0x4] := by
  cases i <;> simp [opcode]

/-- WRBIT alone has the bit operand 1 (R60). -/
theorem opcode_of_bOperand {i : Instr} (h : bOperand i = true) : BitVec.ofNat 4 (opcode i) = 0x3 := by
  cases i with
  | wrbit b => rfl
  | embed | extract | rdbit => cases h

/-- A word with the field values of R64 is ILLEGAL: no command has them. -/
theorem decode_illegal_of_fields {w : Word}
    (h : opField w ∉ [0x1, 0x2, 0x3, 0x4] ∨ rsvField w ≠ 0 ∨ (bField w = true ∧ opField w ≠ 0x3)) :
    ∃ why, decode w = .illegal why := by
  cases hd : decode w with
  | illegal why => exact ⟨why, rfl⟩
  | command i =>
    exfalso
    obtain ⟨ho, hb, hr⟩ := fields_of_decode hd
    have hop : opField w = BitVec.ofNat 4 (opcode i) := by rw [← ho, BitVec.ofNat_toNat, BitVec.setWidth_eq]
    rw [hop, hb] at h
    obtain hbad | hbad | ⟨hbit, hbad⟩ := h
    · exact hbad (opcode_mem i)
    · exact hbad hr
    · exact hbad (opcode_of_bOperand hbit)

/-- What the completion of an ILLEGAL word leaves (R64). -/
theorem raiseError_illegalCmd (s : State) :
    raiseError .illegalCmd s = { s with status := 0x00000016, seq := { s.seq with mode := .idle } } := rfl

/-- Settles O24: the word is ILLEGAL, so the decode step is its completion. -/
theorem illegalWordCompletesAtOnce : Obligations.IllegalWordCompletesAtOnce := by
  intro s hm h
  obtain ⟨why, hd⟩ := decode_illegal_of_fields h
  refine ⟨⟨why, hd⟩, ?_⟩
  rw [← raiseError_illegalCmd]
  calc seqStep s = decodeStep s := by simp only [seqStep, hm]
    _ = .next (raiseError .illegalCmd s) := decodeStep_illegal hd

/-- With no turn listed the decode step of a command runs it whole (R67, log entry 6). -/
theorem step_command {s : State} {i : Instr} (hts : s.turns = []) (hm : s.seq.mode = .dec)
    (hd : decode s.seq.cw = .command i) : step s = exec i s := by
  simp only [step, hts, commandTurn, hm, hd]

/-- With no turn listed the decode step of an ILLEGAL word completes it (R64). -/
theorem step_illegal {s : State} {why : IllegalWord} (hts : s.turns = []) (hm : s.seq.mode = .dec)
    (hd : decode s.seq.cw = .illegal why) : step s = .next (raiseError .illegalCmd s) := by
  simp only [step, hts, commandTurn, hm, hd]

/-- A fetched word has just been issued, with no turn listed (R65, log entry 5). -/
theorem withFetchWord_eq (s : State) (w : Word) : s.withFetchWord 32 w.toNat = (issue w s).setTurns [] := by
  rw [State.withFetchWord, zext32, Nat.mod_eq_of_lt w.isLt, BitVec.ofNat_toNat, BitVec.setWidth_eq]

/-- Settles O43: the three steps; a fetched encoding decodes to its command. -/
theorem stepRunsTheDecodedCommand : Obligations.StepRunsTheDecodedCommand := by
  refine ⟨fun s i => step_command, fun s why hts hm hd => ?_, fun s i => ?_⟩
  · rw [← raiseError_illegalCmd]; exact step_illegal hts hm hd
  · rw [withFetchWord_eq]; exact step_command rfl rfl (decode_encode i)

/-! ## Issue and WAIT at the host port (R65, R69) -/

/-- Settles O13: the write of CMD is the issue of its word. -/
theorem commandIssue : Obligations.CommandIssue := by
  intro s w _
  exact hostAccess_regWrite s .cmd w

/-- Settles O17: WAIT is the next of the HOST's program, and stays it while BUSY = 1. -/
theorem waitPollsStatus : Obligations.WaitPollsStatus := by
  intro s ts rest hts hh hq
  rw [step_host hts, hostTurn_queue (s := s.setTurns ts) hh hq]
  cases hb : statusBusy s.status with
  | true => simp only [hostStmt, setTurns_status, hb, if_true, ← hq]; rfl
  | false => simp only [hostStmt, setTurns_status, hb]; rfl

/-! ## Sequencer turns (R66, R67) -/

/-- A listed sequencer turn is one sequencer step (log entry 6). -/
theorem step_seq {s : State} {ts : List Turn} (h : s.turns = .seq :: ts) : step s = seqStep (s.setTurns ts) := by
  simp only [step, h]

/-- The first of `k + 1` listed sequencer turns: a sequencer step of the machine, the other turns left. -/
theorem step_replicate_seq (k : Nat) (s : State) :
    step (s.setTurns (List.replicate (k + 1) .seq))
      = Result.map (State.setTurns · (List.replicate k .seq)) (seqStep s) :=
  (step_seq rfl).trans (seqStep_setTurns s _)

/-- A run of a busy sequencer stops at a step that faults. -/
theorem seqRun_succ_of_fault {k : Nat} {s : State} {r : Fault} (hm : s.seq.mode ≠ .idle) (h : seqStep s = .fault r) :
    seqRun (k + 1) s = .fault r := by
  simp only [seqRun, hm, if_false, h]

/-- Settles O41, by induction on the number of turns: an idle sequencer leaves each turn without effect, and a busy one
takes the same step whatever turns follow. -/
theorem sequencerTurnsRunTheSequencer : Obligations.SequencerTurnsRunTheSequencer := by
  intro k
  induction k with
  | zero => intro s; rfl
  | succ k ih =>
    intro s
    have hstep := step_replicate_seq k s
    have hseq := seqStep_setTurns s []
    by_cases hm : s.seq.mode = .idle
    · have hs : seqStep s = .next s := by simp only [seqStep, hm]
      rw [hs] at hstep
      simp only [runFor, hstep, Result.map, ih]
      rw [seqRun_idle k (s := s.setTurns []) hm, seqRun_idle (k + 1) (s := s.setTurns []) hm]
    · cases hs : seqStep s with
      | next t =>
        rw [hs] at hstep hseq
        simp only [runFor, hstep, Result.map, ih]
        exact (seqRun_succ (s := s.setTurns []) hm hseq).symm
      | fault r =>
        rw [hs] at hstep hseq
        simp only [runFor, hstep, Result.map]
        exact (seqRun_succ_of_fault (s := s.setTurns []) hm hseq).symm
      | refused r => exact absurd hs (seqStep_not_refused s r)

/-! ## Host assembly (R68, R69) -/

/-- A line whose tokens are a statement stands for the statement's accesses. -/
theorem assembleLine_of_statement {line : List Char} {st : AsmStmt}
    (h : (lexLine (.plain []) line).bind parseTokens = some st) : assembleLine line = some (expand st) := by
  unfold assembleLine
  cases hl : lexLine (.plain []) line with
  | none => rw [hl] at h; cases h
  | some ts =>
    rw [hl] at h
    replace h : parseTokens ts = some st := h
    cases ts with
    | nil => cases h
    | cons x xs => simp only [h, Option.map_some]

/-- Settles O22: each line is lexed and parsed to its statement, whose expansion R69 gives. -/
theorem assemblyStandsForAccesses : Obligations.AssemblyStandsForAccesses :=
  ⟨assembleLine_of_statement (st := .command .embed) (by decide +kernel),
    assembleLine_of_statement (st := .wrbitAt 5 true) (by decide +kernel),
    assembleLine_of_statement (st := .rdbitAt 5) (by decide +kernel),
    assembleLine_of_statement (st := .setMsg [0x48, 0x69]) (by decide +kernel),
    assembleLine_of_statement (st := .policyFail) (by decide +kernel), by decide +kernel⟩

end Sys2Proof.Machine
end

section
/-! Proofs for 40_bitcodec.md R75 to R83: bytes to bits and back, the payload's bit at every slot, the terminator. -/

namespace Sys2Proof.Machine

/-! ## Bytes to bits (R75, R76) -/

@[simp] theorem toBits_length (m : List Byte) : (toBits m).length = 8 * m.length := by
  induction m with
  | nil => rfl
  | cons v vs ih => rw [toBits_cons, List.length_append, ih, byteBits_length, List.length_cons]; omega

/-- Bit `i` of byte `j` stands at `8 * j + i`, most-significant bit first. -/
theorem toBits_getElem?_group {m : List Byte} {j i : Nat} (hj : j < m.length) (hi : i < 8) :
    (toBits m)[8 * j + i]? = some ((m.getD j 0).getLsbD (7 - i)) := by
  induction m generalizing j with
  | nil => cases hj
  | cons v vs ih =>
    cases j with
    | zero =>
      rw [toBits_cons, List.getElem?_append_left (by simpa using hi), Nat.mul_zero, Nat.zero_add, List.getD_cons_zero]
      exact byteBits_getElem? v hi
    | succ j =>
      have hpos : 8 * (j + 1) + i - (byteBits v).length = 8 * j + i := by rw [byteBits_length]; omega
      rw [toBits_cons, List.getElem?_append_right (by rw [byteBits_length]; omega), hpos, List.getD_cons_succ]
      exact ih (Nat.lt_of_succ_lt_succ hj)

/-- The bit at a position: its byte is the quotient by 8, its place in the byte the remainder. -/
theorem toBits_getElem? {m : List Byte} {s : Nat} (hs : s < 8 * m.length) :
    (toBits m)[s]? = some ((m.getD (s / 8) 0).getLsbD (7 - s % 8)) := by
  have h := toBits_getElem?_group (m := m) (j := s / 8) (i := s % 8) (by omega) (by omega)
  rwa [Nat.div_add_mod] at h

/-- Settles O4: the length and the bit at each position. -/
theorem toBitsIsMsbFirst : Obligations.ToBitsIsMsbFirst :=
  ⟨toBits_length, fun _ _ hi => toBits_getElem? hi⟩

/-! ## Bits to bytes (R77, R78, R82) -/

/-- The byte of eight bits has these bits, in order. -/
theorem byteBits_groupByte (g : Nat → Bit) :
    byteBits (groupByte (g 0) (g 1) (g 2) (g 3) (g 4) (g 5) (g 6) (g 7)) = [g 0, g 1, g 2, g 3, g 4, g 5, g 6, g 7] := by
  apply List.ext_getElem?
  intro i
  by_cases hi : i < 8
  · rw [byteBits_getElem? _ hi, groupByte_getLsbD g hi]
    interval_cases i <;> rfl
  · rw [List.getElem?_eq_none (by simpa using hi), List.getElem?_eq_none (by simpa using hi)]

/-- Decoding takes one byte's bits off the front of a stream as that byte. -/
theorem fromBits_byteBits_append (v : Byte) (rest : List Bit) :
    fromBits (byteBits v ++ rest) = (fromBits rest).map (v :: ·) := by
  have hv : groupByte (v.getLsbD 7) (v.getLsbD 6) (v.getLsbD 5) (v.getLsbD 4) (v.getLsbD 3) (v.getLsbD 2)
      (v.getLsbD 1) (v.getLsbD 0) = v := groupByte_eq (g := fun i => v.getLsbD (7 - i)) fun _ _ => rfl
  simp only [byteBits, List.cons_append, List.nil_append, fromBits, hv]

/-- Decoding inverts encoding (R82). -/
@[simp] theorem fromBits_toBits (m : List Byte) : fromBits (toBits m) = some m := by
  induction m with
  | nil => rfl
  | cons v vs ih => rw [toBits_cons, fromBits_byteBits_append, ih, Option.map_some]

/-- Settles O5. -/
theorem fromBitsInvertsToBits : Obligations.FromBitsInvertsToBits := fromBits_toBits

/-- A stream that decodes is the encoding of its value: decoding is injective, group by group. -/
theorem toBits_of_fromBits {g : List Bit} {m : List Byte} (h : fromBits g = some m) : toBits m = g := by
  induction g using fromBits.induct generalizing m with
  | case1 => cases h; rfl
  | case2 g0 g1 g2 g3 g4 g5 g6 g7 rest ih =>
    rw [fromBits, Option.map_eq_some_iff] at h
    obtain ⟨vs, hvs, rfl⟩ := h
    have hv := byteBits_groupByte fun i => [g0, g1, g2, g3, g4, g5, g6, g7].getD i false
    rw [toBits_cons, ih hvs]
    exact congrArg (· ++ rest) hv
  | case3 g hnil hgroup => rw [fromBits.eq_3 g hnil hgroup] at h; cases h

/-- Eight bits are the bits of a byte. -/
theorem exists_byteBits_eq {g : List Bit} (h : g.length = 8) : ∃ v, byteBits v = g := by
  refine ⟨_, (byteBits_groupByte fun i => g.getD i false).trans ?_⟩
  apply List.ext_getElem (by simp [h])
  intro i (hi : i < 8) _
  interval_cases i <;> simp [h]

/-- A stream of whole groups is the encoding of a byte sequence. -/
theorem exists_toBits_eq {n : Nat} {g : List Bit} (h : g.length = 8 * n) : ∃ m, toBits m = g := by
  induction n generalizing g with
  | zero => exact ⟨[], (List.eq_nil_of_length_eq_zero h).symm⟩
  | succ n ih =>
    obtain ⟨v, hv⟩ := exists_byteBits_eq (g := g.take 8) (by rw [List.length_take]; omega)
    obtain ⟨vs, hvs⟩ := ih (g := g.drop 8) (by rw [List.length_drop]; omega)
    exact ⟨v :: vs, by rw [toBits_cons, hv, hvs, List.take_append_drop]⟩

/-- The number a group stands for (R77) fits a byte. -/
theorem groupByte_toNat (g0 g1 g2 g3 g4 g5 g6 g7 : Bit) :
    (groupByte g0 g1 g2 g3 g4 g5 g6 g7).toNat = bitNat g0 * 128 + bitNat g1 * 64 + bitNat g2 * 32 + bitNat g3 * 16
      + bitNat g4 * 8 + bitNat g5 * 4 + bitNat g6 * 2 + bitNat g7 := by
  have hbit (b : Bit) : bitNat b < 2 := by cases b <;> decide
  have h0 := hbit g0; have h1 := hbit g1; have h2 := hbit g2; have h3 := hbit g3
  have h4 := hbit g4; have h5 := hbit g5; have h6 := hbit g6; have h7 := hbit g7
  rw [groupByte, BitVec.toNat_ofNat, Nat.mod_eq_of_lt (by omega)]

/-- Byte `j` is the byte of group `j` of its encoding (R77). -/
theorem groupByte_toBits {m : List Byte} {j : Nat} (hj : j < m.length) {g : List Bit} (hg : toBits m = g) :
    groupByte (g.getD (8 * j) false) (g.getD (8 * j + 1) false) (g.getD (8 * j + 2) false) (g.getD (8 * j + 3) false)
      (g.getD (8 * j + 4) false) (g.getD (8 * j + 5) false) (g.getD (8 * j + 6) false) (g.getD (8 * j + 7) false)
      = m.getD j 0 := by
  refine groupByte_eq (g := fun i => g.getD (8 * j + i) false) fun i hi => ?_
  rw [← hg, List.getD_eq_getElem?_getD, toBits_getElem?_group hj hi, Option.getD_some]

/-- Settles O6: a stream that decodes is an encoding, so of whole groups; one of whole groups is an encoding. -/
theorem fromBitsDecodesWholeGroups : Obligations.FromBitsDecodesWholeGroups := by
  refine fun g => ⟨fun hpart => ?_, fun hwhole => ?_⟩
  · rw [Option.eq_none_iff_forall_ne_some]
    intro m hm
    rw [← toBits_of_fromBits hm, toBits_length] at hpart
    omega
  · obtain ⟨m, rfl⟩ := exists_toBits_eq (g := g) (n := g.length / 8) (by omega)
    have hlen : m.length = (toBits m).length / 8 := by rw [toBits_length]; omega
    refine ⟨m, fromBits_toBits m, hlen, rfl, fun j hj => ?_⟩
    rw [← groupByte_toNat, groupByte_toBits (hlen ▸ hj) rfl]

/-! ## The payload (R79, R80) -/

/-- The terminator's bits: fifteen 1 bits, then a 0 bit. -/
theorem term_getElem? {j : Nat} (hj : j < 16) : term[j]? = some (decide (j ≠ 15)) := by
  interval_cases j <;> rfl

/-- The payload is the message's bits up to the terminator. -/
theorem payloadBits_getElem?_of_lt {m : List Byte} {s : Nat} (hs : s < 8 * m.length) :
    (payloadBits m)[s]? = (toBits m)[s]? :=
  List.getElem?_append_left (by rwa [toBits_length])

/-- After the message's bits the payload is the terminator. -/
theorem payloadBits_getElem?_term (m : List Byte) (j : Nat) : (payloadBits m)[8 * m.length + j]? = term[j]? := by
  rw [payloadBits, List.getElem?_append_right (by rw [toBits_length]; omega), toBits_length, Nat.add_sub_cancel_left]

/-- `P(B, s)` is the payload's bit at `s` (R80). -/
theorem payloadBits_getElem? {m : List Byte} {s : Nat} (hs : s < 8 * m.length + 16) :
    (payloadBits m)[s]? = some (payloadBit m s) := by
  by_cases hmsg : s < 8 * m.length
  · rw [payloadBits_getElem?_of_lt hmsg, toBits_getElem? hmsg, payloadBit_message hmsg]
  · obtain ⟨j, rfl⟩ := Nat.exists_eq_add_of_le (Nat.le_of_not_lt hmsg)
    have hj : j < 16 := by omega
    rw [payloadBits_getElem?_term, term_getElem? hj, payloadBit_term hj]

/-- Settles O7: the message's bits, then the terminator's. -/
theorem payloadBitAtSlot : Obligations.PayloadBitAtSlot := by
  refine fun m => ⟨?_, rfl, fun s hs => ?_, fun j hj => ⟨?_, term_getElem? hj⟩, fun s hs => payloadBits_getElem? hs⟩
  · rw [payloadBits, List.length_append, toBits_length, term_length]
  · rw [payloadBits_getElem?_of_lt hs, toBits_getElem? hs]
  · rw [payloadBits_getElem?_term, term_getElem? hj]

/-! ## The terminator as bytes and the stop group (R81, R83) -/

/-- The terminator is the encoding of FF FE. -/
theorem toBits_FF_FE : toBits [0xFF, 0xFE] = term := by decide

/-- Every bit of FF is 1. -/
theorem getLsbD_FF {i : Nat} (hi : i < 8) : (0xFF : Byte).getLsbD i = true := by
  interval_cases i <;> rfl

/-- Settles O8: the terminator decodes as the encoding it is, and a message byte FF gives its group its eight 1 bits. -/
theorem terminatorBytesAndStopGroup : Obligations.TerminatorBytesAndStopGroup := by
  refine ⟨by rw [← toBits_FF_FE, fromBits_toBits], rfl, rfl, isStop_iff, fun m j hj hFF i hi => ?_⟩
  rw [payloadBits_getElem?_of_lt (by omega), toBits_getElem?_group hj hi, hFF, getLsbD_FF (by omega)]

end Sys2Proof.Machine
end

section
/-! Proofs for 41_slot_access.md R87 to R91: what WRBIT and RDBIT do on every slot. -/

namespace Sys2Proof.Machine

/-! ## Each command on a slot that exists and on one that does not (R87, R88, R90) -/

theorem exec_wrbit_valid {s : State} (b : Bit) (h : s.slot.toNat < s.params.cap) :
    exec (.wrbit b) s = .next (afterSlotCommand s (lsbWrite s.car s.slot.toNat b) 0x00000002) :=
  execWrbit_valid b h

theorem exec_wrbit_invalid {s : State} (b : Bit) (h : s.params.cap ≤ s.slot.toNat) :
    exec (.wrbit b) s = .next (afterSlotCommand s s.car 0x00000026) :=
  execWrbit_invalid b h

theorem exec_rdbit_valid {s : State} (h : s.slot.toNat < s.params.cap) :
    exec .rdbit s = .next (afterSlotCommand s s.car (completeStatus .none (lsbRead s.car s.slot.toNat) false false)) :=
  execRdbit_valid h

theorem exec_rdbit_invalid {s : State} (h : s.params.cap ≤ s.slot.toNat) :
    exec .rdbit s = .next (afterSlotCommand s s.car 0x00000026) :=
  execRdbit_invalid h

/-- The STATUS of an RDBIT that completes, as a word (R90). -/
theorem completeStatus_rbit (r : Bit) :
    completeStatus .none r false false = if r then 0x00000102 else 0x00000002 := by
  cases r <;> rfl

/-- LsbWrite leaves every other sample (20_memory.md R47). -/
theorem memRead_lsbWrite_of_ne (m : Memory) {s a : Nat} (b : Bit) (ha : a ≠ s) :
    memRead .car (lsbWrite m s b) a = memRead .car m a := by
  rw [memRead_lsbWrite, if_neg ha]

/-! ## The statements -/

/-- Settles O27: the two words are WRBIT's encodings, and on a slot that exists the carrier is that of LsbWrite. -/
theorem wrbitWritesOneSlot : Obligations.WrbitWritesOneSlot := by
  refine ⟨decode_encode (.wrbit false), decode_encode (.wrbit true), fun s b => ⟨fun hv => ?_, exec_wrbit_invalid b⟩⟩
  refine ⟨_, exec_wrbit_valid b hv, ?_, fun a => memRead_lsbWrite_of_ne s.car b⟩
  rw [memRead_lsbWrite, if_pos rfl, withLsb_toNat]

/-- Settles O28: on a slot that exists the second LsbWrite stands, which is the first again as the carrier is canonical;
on one that does not, neither changes the carrier. -/
theorem wrbitIsIdempotent : Obligations.WrbitIsIdempotent := by
  intro s b h
  by_cases hv : s.slot.toNat < s.params.cap
  · refine ⟨_, exec_wrbit_valid b hv, ?_, fun a => memRead_lsbWrite_of_ne s.car b⟩
    have hcar : s.car.wf = true := ((bufWf_iff .car s).mp (h.buffers .car)).1
    calc exec (.wrbit b) (afterSlotCommand s (lsbWrite s.car s.slot.toNat b) 0x00000002)
      _ = .next (afterSlotCommand s (lsbWrite (lsbWrite s.car s.slot.toNat b) s.slot.toNat b) 0x00000002) :=
        exec_wrbit_valid b hv
      _ = .next (afterSlotCommand s (lsbWrite s.car s.slot.toNat b) 0x00000002) := by rw [lsbWrite_lsbWrite hcar]
  · have hi : s.params.cap ≤ s.slot.toNat := Nat.le_of_not_lt hv
    exact ⟨_, exec_wrbit_invalid b hi, exec_wrbit_invalid b hi, fun _ _ => rfl⟩

/-- Settles O29: the word is RDBIT's encoding, and on a slot that exists STATUS holds the slot's bit. -/
theorem rdbitReadsOneSlot : Obligations.RdbitReadsOneSlot := by
  refine ⟨decode_encode .rdbit, fun s => ⟨fun hv => ?_, exec_rdbit_invalid⟩⟩
  rw [exec_rdbit_valid hv, completeStatus_rbit, lsbRead]

/-- Settles O30: RDBIT finds the slot valid again, and the bit it reads is the one LsbWrite wrote. -/
theorem rdbitAfterWrbit : Obligations.RdbitAfterWrbit := by
  intro s b hv
  refine ⟨_, exec_wrbit_valid b hv, fun u hparams hcar hslot => ?_⟩
  have hvu : u.slot.toNat < u.params.cap := by rw [hparams, hslot]; exact hv
  have hbit : lsbRead u.car u.slot.toNat = b := by
    rw [hcar, hslot]
    exact (lsbRead_lsbWrite s.car s.slot.toNat b s.slot.toNat).trans (if_pos rfl)
  exact ⟨_, exec_rdbit_valid hvu, (statusRbit_complete _ _ _ _).trans hbit⟩

end Sys2Proof.Machine
end

section
/-! Proofs for 42_stego.md R95 to R105: what EMBED and EXTRACT leave, and what EXTRACT finds after EMBED. -/

namespace Sys2Proof.Machine

/-! ## The numbers and the STATUS words of the results -/

/-- CAP fits a register (00_scope.md R6). -/
theorem MachineInv.cap_lt {s : State} (h : MachineInv s) : s.params.cap < 2 ^ 32 := by
  have hwf := h.params
  simp only [Params.wf, Bool.and_eq_true, decide_eq_true_eq] at hwf
  omega

/-- A number up to CAP is the value of its register (00_scope.md R7). -/
theorem MachineInv.zext32_toNat {s : State} (h : MachineInv s) {n : Nat} (hn : n ≤ s.params.cap) :
    (zext32 n).toNat = n := by
  rw [zext32, BitVec.toNat_ofNat, Nat.mod_eq_of_lt (hn.trans_lt h.cap_lt)]

/-- The STATUS of an EMBED that succeeds, as a word (R95). -/
theorem completeStatus_trunc (t : Bit) :
    completeStatus .none false t false = if t then 0x00000202 else 0x00000002 := by
  cases t <;> rfl

/-- The STATUS of an EXTRACT, as a word (R99). -/
theorem completeStatus_found (f : Bit) :
    completeStatus .none false false f = if f then 0x00000402 else 0x00000002 := by
  cases f <;> rfl

/-! ## EMBED (R95, R97) -/

/-- EMBED with a message longer than the buffer (R95). -/
theorem exec_embed_tooLong {s : State} (h : s.params.msgBufBytes < msgLen s) :
    exec .embed s = .next (afterFailedEmbed s 0x00000046) :=
  execEmbed_tooLong h

/-- EMBED whose payload overflows under FAIL (R95). -/
theorem exec_embed_overflow {s : State} (h : msgLen s ≤ s.params.msgBufBytes)
    (ho : s.params.cap < 8 * msgLen s + 16) (hp : s.config.getLsbD 0 = true) :
    exec .embed s = .next (afterFailedEmbed s 0x00000036) :=
  execEmbed_overflow h ho hp

/-- EMBED of a message that fits (R95). -/
theorem exec_embed_fits {s : State} (h : msgLen s ≤ s.params.msgBufBytes) (hf : 8 * msgLen s + 16 ≤ s.params.cap) :
    exec .embed s = .next (embedded s) :=
  execEmbed_succeeds h fun hs => absurd hs.1 (Nat.not_lt.mpr hf)

/-- EMBED under TRUNCATE (R95). -/
theorem exec_embed_truncate {s : State} (h : msgLen s ≤ s.params.msgBufBytes) (hp : s.config.getLsbD 0 = false) :
    exec .embed s = .next (embedded s) :=
  execEmbed_succeeds h fun hs => absurd hs.2 (Bool.eq_false_iff.mp hp)

/-- Every sample after an EMBED that succeeds (R95). -/
theorem memRead_embedded (s : State) (a : Nat) :
    memRead .car (embedded s).car a =
      if a < embedLimit s then withLsb (memRead .car s.car a) (payloadBit (message s) a) else memRead .car s.car a :=
  memRead_embedSlots _ _ _ a

/-- The bit of every slot an EMBED writes (R95). -/
theorem lsbRead_embedded {s : State} {a : Nat} (h : a < embedLimit s) :
    lsbRead (embedded s).car a = payloadBit (message s) a :=
  (lsbRead_embedSlots _ _ _ a).trans (if_pos h)

theorem embedded_bitsWritten {s : State} (h : MachineInv s) : (embedded s).bitsWritten.toNat = embedLimit s :=
  h.zext32_toNat (min_le_right _ _)

@[simp] theorem embedded_status (s : State) :
    (embedded s).status = completeStatus .none false (overflows s) false := rfl

/-- The bit of a message slot. -/
theorem payloadBit_message_slot {s : State} {j i : Nat} (hj : j < msgLen s) (hi : i < 8) :
    payloadBit (message s) (8 * j + i) = (memRead .min s.mIn j).getLsbD (7 - i) := by
  have hlen : (message s).length = msgLen s := minBytes_length s _
  rw [payloadBit_message (by omega), show (8 * j + i) / 8 = j by omega, show (8 * j + i) % 8 = i by omega, message,
    minBytes_getD s hj]

/-- The bit of a terminator slot. -/
theorem payloadBit_term_slot {s : State} {i : Nat} (hi : i < 16) :
    payloadBit (message s) (8 * msgLen s + i) = decide (i ≠ 15) := by
  have hlen : (message s).length = msgLen s := minBytes_length s _
  rw [← hlen]
  exact payloadBit_term hi

/-- Settles O31: the two failures, and the samples and registers an EMBED that succeeds leaves. -/
theorem embedWritesThePayload : Obligations.EmbedWritesThePayload := by
  refine ⟨decode_encode .embed, fun s h => ⟨exec_embed_tooLong, exec_embed_overflow, fun hl hs => ?_⟩⟩
  refine ⟨embedded s, execEmbed_succeeds hl hs, fun a ha => ?_, fun a ha => ?_, embedded_bitsWritten h, ?_, rfl, rfl⟩
  · rw [memRead_embedded, if_pos (show a < embedLimit s from ha), withLsb_toNat]
  · rw [memRead_embedded, if_neg (show ¬ a < embedLimit s from Nat.not_lt.mpr ha)]
  · rw [embedded_status, completeStatus_trunc]
    simp only [overflows, decide_eq_true_eq]; rfl

/-- Settles O32: `exec_half` keeps bits 7:1, a sample that changes is one of the loop's, and its pixel is its triple. -/
theorem embedChangesOnlyLeastSignificantBits : Obligations.EmbedChangesOnlyLeastSignificantBits := by
  intro s
  obtain ⟨t, -, -, -, -, ht, -⟩ := exec_completes .embed s
  refine ⟨t, ht, fun a => ⟨exec_half ht a, fun hne => ?_⟩⟩
  have hlt : a < min (8 * msgLen s + 16) s.params.cap := by
    obtain hc | ⟨b, hi, -⟩ | ⟨-, hc⟩ := exec_car ht
    · exact absurd (by rw [hc]) hne
    · cases hi
    · by_contra hge
      exact hne (by rw [hc, memRead_embedSlots]; exact if_neg hge)
  refine ⟨hlt, ?_⟩
  rw [indexOf_pixel]
  omega

/-! ## EXTRACT (R99, R100) -/

theorem MachineInv.mOut_wf {s : State} (h : MachineInv s) : s.mOut.wf = true :=
  ((bufWf_iff .mout s).mp (h.buffers .mout)).1

theorem extracted_msgOutLen {s : State} (h : MachineInv s) : (extracted s).msgOutLen.toNat = (extractScan s).k := by
  obtain ⟨hk, -⟩ := extractScan_spec h.mOut_wf
  exact h.zext32_toNat (by omega)

@[simp] theorem extracted_status (s : State) :
    (extracted s).status = completeStatus .none false false (extractScan s).found := rfl

/-- Settles O33: what the scan of the groups does, said in samples. -/
theorem extractCopiesGroupsToTheStopGroup : Obligations.ExtractCopiesGroupsToTheStopGroup := by
  refine ⟨decode_encode .extract, fun s h => ?_⟩
  obtain ⟨hk, hcopied, hstop, hall, -, hmem⟩ := extractScan_spec h.mOut_wf
  refine ⟨extracted s, (extractScan s).k, execExtract_eq s, extracted_msgOutLen h, hk, fun j hj => ?_, fun a ha => ?_,
    fun hlt => ?_, fun heq => ?_, rfl, rfl⟩
  · have hread : memRead .mout (extracted s).mOut j = groupAt s.car j := (hmem j).trans (if_pos hj)
    rw [hread]
    exact ⟨hcopied j hj, fun i hi => groupAt_getLsbD s.car j hi⟩
  · exact (hmem a).trans (if_neg (Nat.not_lt.mpr ha))
  · have hf : (extractScan s).found = true := by
      by_contra hf
      exact absurd (hall (Bool.eq_false_iff.mpr hf)) (by omega)
    refine ⟨by rw [extracted_status, hf, completeStatus_found]; rfl, fun i hi => ?_⟩
    have hbit := groupAt_getLsbD s.car (extractScan s).k hi
    rw [(hstop hf).2, getLsbD_FF (by omega)] at hbit
    exact hbit.symm
  · have hf : (extractScan s).found = false := Bool.eq_false_iff.mpr fun hf => absurd (hstop hf).1 (by omega)
    rw [extracted_status, hf, completeStatus_found]; rfl

/-- EXTRACT of a carrier whose groups before `k` are no stop groups, and whose group `k` is one or lies past the last. -/
theorem extracted_of_groups {u : State} (h : MachineInv u) {k : Nat} (hk : k ≤ u.params.cap / 8)
    (hb : ∀ j, j < k → groupAt u.car j ≠ 0xFF) (he : k < u.params.cap / 8 → groupAt u.car k = 0xFF) :
    (extracted u).msgOutLen.toNat = k ∧ statusFound (extracted u).status = decide (k < u.params.cap / 8)
      ∧ ∀ j, j < k → memRead .mout (extracted u).mOut j = groupAt u.car j := by
  obtain ⟨hkk, hf⟩ : (extractScan u).k = k ∧ (extractScan u).found = decide (k < u.params.cap / 8) :=
    scanGroups_end u.car u.mOut hk hb he h.mOut_wf
  obtain ⟨-, -, -, -, -, hmem⟩ := extractScan_spec h.mOut_wf
  refine ⟨(extracted_msgOutLen h).trans hkk, ?_, fun j hj => (hmem j).trans (if_pos (hkk.symm ▸ hj))⟩
  rw [extracted_status, statusFound_complete, hf]

/-! ## EXTRACT after EMBED (R101 to R104) -/

/-- The groups an EMBED leaves (R95, R96): the message's bytes, then the terminator's FF. -/
theorem groupAt_embedded {s : State} {k : Nat} (hk : k ≤ msgLen s) (hc : k < s.params.cap / 8) :
    groupAt (embedded s).car k = if k < msgLen s then memRead .min s.mIn k else 0xFF := by
  have hlim : 8 * k + 8 ≤ embedLimit s := by rw [embedLimit, payloadLen]; omega
  refine groupAt_eq fun i hi => ?_
  rw [lsbRead_embedded (by omega)]
  split_ifs with hlt
  · exact payloadBit_message_slot hlt hi
  · obtain rfl : k = msgLen s := by omega
    have hbit : i ≠ 15 := by omega
    rw [payloadBit_term_slot (by omega), getLsbD_FF (by omega), decide_eq_true hbit]

/-- EXTRACT after an EMBED ends at group `k` when the message bytes before `k` are not FF, and the scan ends at `k`:
byte `k` is FF, or the message ends there, or the carrier's groups do. -/
theorem extracted_after_embedded {s u : State} (hu : MachineInv u) (hp : u.params = (embedded s).params)
    (hc : u.car = (embedded s).car) {k : Nat} (hk : k ≤ msgLen s) (hcap : k ≤ s.params.cap / 8)
    (hb : ∀ j, j < k → memRead .min s.mIn j ≠ 0xFF)
    (he : k < msgLen s → k < s.params.cap / 8 → memRead .min s.mIn k = 0xFF) :
    (extracted u).msgOutLen.toNat = k ∧ statusFound (extracted u).status = decide (k < s.params.cap / 8)
      ∧ ∀ j, j < k → memRead .mout (extracted u).mOut j = memRead .min s.mIn j := by
  replace hp : u.params = s.params := hp
  have hgroup : ∀ j, j < k → groupAt u.car j = memRead .min s.mIn j := fun j hj => by
    rw [hc, groupAt_embedded (by omega) (by omega), if_pos (by omega)]
  have hstop : k < s.params.cap / 8 → groupAt u.car k = 0xFF := fun hlt => by
    rw [hc, groupAt_embedded hk hlt]
    split_ifs with hm
    · exact he hm hlt
    · rfl
  rw [← hp] at hcap hstop ⊢
  obtain ⟨hlen, hfound, hmem⟩ := extracted_of_groups hu hcap (fun j hj => hgroup j hj ▸ hb j hj) hstop
  exact ⟨hlen, hfound, fun j hj => (hmem j hj).trans (hgroup j hj)⟩

/-- Settles O34: no message byte is a stop group, and the terminator's first byte is one. -/
theorem embedThenExtractRoundTrip : Obligations.EmbedThenExtractRoundTrip := by
  intro s _ hl hf hb
  refine ⟨_, exec_embed_fits hl hf, statusErr_complete _ _ _ _, fun u hu hp hc => ⟨_, execExtract_eq u, ?_⟩⟩
  obtain ⟨hlen, hfound, hmem⟩ :=
    extracted_after_embedded hu hp hc (le_refl _) (by omega) hb fun hlt => absurd hlt (lt_irrefl _)
  exact ⟨BitVec.eq_of_toNat_eq hlen, hfound.trans (decide_eq_true (by omega)), hmem⟩

/-- Settles O35: the message byte FF is the first stop group. -/
theorem extractStopsAtFirstFF : Obligations.ExtractStopsAtFirstFF := by
  intro s j _ hl hf hj hFF hb
  refine ⟨_, exec_embed_fits hl hf, statusErr_complete _ _ _ _, fun u hu hp hc => ⟨_, execExtract_eq u, ?_⟩⟩
  obtain ⟨hlen, hfound, hmem⟩ :=
    extracted_after_embedded hu hp hc hj.le (by omega) hb fun _ _ => hFF
  exact ⟨hlen, hfound.trans (decide_eq_true (by omega)), hmem⟩

/-- Settles O37: the scan ends at the terminator when the message leaves a group for it, else at the last group. -/
theorem truncatedEmbedThenExtract : Obligations.TruncatedEmbedThenExtract := by
  intro s _ hl hpol ho hb
  refine ⟨_, exec_embed_truncate hl hpol, ?_, fun u hu hp hc => ⟨_, execExtract_eq u, ?_⟩⟩
  · rw [embedded_status, show overflows s = true from decide_eq_true ho]; rfl
  · obtain ⟨hlen, hfound, hmem⟩ :=
      extracted_after_embedded hu hp hc (min_le_left _ _) (min_le_right _ _) hb (by omega)
    exact ⟨fun hlt => ⟨by omega, hfound.trans (decide_eq_true (by omega)), by omega⟩,
      fun hge => ⟨by omega, hfound.trans (decide_eq_false (by omega))⟩, hmem⟩

/-- Settles O36: with no message the payload is the terminator, and EXTRACT ends at group 0. -/
theorem emptyMessage : Obligations.EmptyMessage := by
  intro s h h0
  have hl : msgLen s ≤ s.params.msgBufBytes := h0 ▸ Nat.zero_le _
  have hlim : embedLimit s = min 16 s.params.cap := by rw [embedLimit, payloadLen, h0]
  refine ⟨fun hor => ?_, fun hc hp => exec_embed_overflow hl (by omega) hp⟩
  have hexec : exec .embed s = .next (embedded s) := by
    obtain hf | hp := hor
    · exact exec_embed_fits hl (by omega)
    · exact exec_embed_truncate hl hp
  refine ⟨_, hexec, statusErr_complete _ _ _ _, (embedded_bitsWritten h).trans hlim, ?_, fun a ha => ?_, fun a ha => ?_,
    fun u hu hp hc => ⟨_, execExtract_eq u, ?_⟩⟩
  · rw [embedded_status, statusTrunc_complete, overflows, payloadLen, h0]
  · have hbit := payloadBit_term_slot (s := s) (i := a) (by omega)
    rw [h0, Nat.mul_zero, Nat.zero_add] at hbit
    rw [memRead_embedded, if_pos (hlim ▸ ha), withLsb_toNat, hbit]
    by_cases h15 : a = 15 <;> simp [h15, bitNat]
  · rw [memRead_embedded, if_neg (hlim ▸ Nat.not_lt.mpr ha)]
  · obtain ⟨hlen, hfound, -⟩ := extracted_after_embedded hu hp hc (Nat.zero_le _) (Nat.zero_le _)
      (fun j hj => absurd hj (Nat.not_lt_zero j)) (by omega)
    refine ⟨BitVec.eq_of_toNat_eq hlen, hfound.trans (decide_eq_decide.mpr ?_)⟩
    omega

/-- Settles O38: under TRUNCATE the 24 slots are message slots, and under FAIL the payload of 48 bits overflows. -/
theorem capacityExhaustionScenario : Obligations.CapacityExhaustionScenario := by
  intro s h hcap hN hbuf _
  have hl : msgLen s ≤ s.params.msgBufBytes := hN ▸ hbuf
  have hlim : embedLimit s = 24 := by rw [embedLimit, payloadLen, hN, hcap]; rfl
  have herr : statusErr 0x00000036 = true := by decide
  have hecode : (statusEcode 0x00000036).toNat = 3 := by decide
  refine ⟨fun hp => ⟨_, exec_embed_truncate hl hp, ?_, ?_, statusErr_complete _ _ _ _, fun a ha => ?_⟩,
    fun hp => ⟨_, exec_embed_overflow hl (by omega) hp, rfl, herr, hecode⟩⟩
  · exact BitVec.eq_of_toNat_eq ((embedded_bitsWritten h).trans hlim)
  · rw [embedded_status, statusTrunc_complete, overflows, payloadLen, hN, hcap]; rfl
  · have hbit := payloadBit_message_slot (s := s) (j := a / 8) (i := a % 8) (by omega) (by omega)
    rw [Nat.div_add_mod] at hbit
    exact (lsbRead_embedded (hlim ▸ ha)).trans hbit

end Sys2Proof.Machine
end

section
/-! Proofs for 42_stego.md R98: what the results of EMBED and EXTRACT depend on. -/

namespace Sys2Proof.Machine

/-- The results of an EMBED depend on the parameters, the samples, the message and the policy alone. -/
theorem execEmbed_results_congr {s t : State} (hparams : s.params = t.params)
    (hcar : ∀ a, a < s.params.cap → memRead .car s.car a = memRead .car t.car a) (hlen : msgLen t = msgLen s)
    (hpol : policyFail t = policyFail s) (hmsg : minBytes t (msgLen s) = minBytes s (msgLen s)) :
    ∃ u v, execEmbed s = .next u ∧ execEmbed t = .next v ∧ u.bitsWritten = v.bitsWritten ∧ u.status = v.status ∧
      ∀ a, a < s.params.cap → memRead .car u.car a = memRead .car v.car a := by
  obtain ⟨hl, hu⟩ | ⟨hl, ho, hp, hu⟩ | ⟨hl, hs, hu⟩ := execEmbed_cases s
  · exact ⟨_, _, hu, execEmbed_tooLong (by rwa [← hparams, hlen]), rfl, rfl, hcar⟩
  · exact ⟨_, _, hu, execEmbed_overflow (by rwa [← hparams, hlen]) (by rwa [← hparams, hlen]) (by rwa [hpol]), rfl,
      rfl, hcar⟩
  · refine ⟨_, _, hu, execEmbed_succeeds (by rwa [← hparams, hlen]) (by rwa [← hparams, hlen, hpol]), ?_, ?_,
      fun a ha => ?_⟩
    · simp only [embedded, complete_bitsWritten, setSeq_bitsWritten, setBitsWritten_bitsWritten, ← hparams, hlen]
    · simp only [embedded, complete_status, ← hparams, hlen]
    · simp only [embedded, complete_car, setSeq_car, setBitsWritten_car, setCar_car, ← hparams, hlen, hmsg,
        memRead_embedSlots, hcar a ha]

/-- Settles O39: EXTRACT reads none of the registers and message bytes in which the two states may differ, so it is
compared with the one of `t` with `s`'s. -/
theorem embedAndExtractAreDeterministic : Obligations.EmbedAndExtractAreDeterministic := by
  intro s t hparams hcar
  refine ⟨fun hlen hpol hmin => ?_, fun hs ht => ?_⟩
  · have hmsg : minBytes t (msgLen s) = minBytes s (msgLen s) :=
      List.map_congr_left fun j hj => (hmin j (List.mem_range.mp hj)).symm
    exact execEmbed_results_congr hparams hcar (congrArg BitVec.toNat hlen.symm) hpol.symm hmsg
  · have h : SameInputs s { t with mIn := s.mIn, slot := s.slot, config := s.config, msgInLen := s.msgInLen } :=
      ⟨hparams, hcar, fun _ _ => rfl, rfl, rfl, rfl⟩
    obtain ⟨hst, ho, hm⟩ := h.extracted_results hs.mOut_wf ht.mOut_wf
    exact ⟨_, _, execExtract_eq s, execExtract_eq t, ho, hst, hm⟩

end Sys2Proof.Machine
end

section
/-! Proofs for 42_stego.md R110 to R116: the slots the sequencer visits, and that its run is the command's meaning. -/

namespace Sys2Proof.Machine

/-! ## One slot a step, in order (R112) -/

/-- A started command begins at slot 0 and has written no sample (R110, R113). -/
theorem decodeStep_starts {s t : State} (h : decodeStep s = .next t) (hm : t.seq.mode ≠ .idle) :
    t.seq.idx = 0 ∧ t.car = s.car := by
  cases hd : decode s.seq.cw with
  | illegal why => cases h.symm.trans (decodeStep_illegal hd); exact absurd rfl hm
  | command i =>
    rw [decodeStep_command hd] at h
    have completed : exec i s = .next t → t.seq.idx = 0 ∧ t.car = s.car := fun he => by
      obtain ⟨u, -, -, -, -, hu, -, hidle, -⟩ := exec_completes i s
      cases he.symm.trans hu
      exact absurd hidle hm
    cases i with
    | embed =>
      cases h
      obtain ⟨-, k⟩ | ⟨-, -, -, k⟩ | ⟨-, -, k⟩ := embedStart_cases s <;> rw [k] at hm ⊢
      · exact absurd rfl hm
      · exact absurd rfl hm
      · exact ⟨rfl, rfl⟩
    | extract => cases h; exact ⟨rfl, rfl⟩
    | wrbit b => exact completed h
    | rdbit => exact completed h

/-- An EXT step reads no slot but the one IDX names, and carries the carrier along (R114). -/
theorem extStep_setCar {s : State} {car : Memory} (h : memRead .car car s.seq.idx = memRead .car s.car s.seq.idx) :
    extStep (s.setCar car) = Result.map (State.setCar · car) (extStep s) := by
  have hbit : lsbRead car s.seq.idx = lsbRead s.car s.seq.idx := by rw [lsbRead, lsbRead, h]
  simp only [extStep, extBit, setCar_seq, setCar_params, setCar_car, hbit]
  split_ifs <;> rfl

/-- Settles O42: the cases of the decode step, of an EMB step and of an EXT step. -/
theorem slotsAreVisitedInOrder : Obligations.SlotsAreVisitedInOrder := by
  refine ⟨fun s t hm h => ?_, fun s t hm h => ?_, fun s t hm h => ?_⟩ <;> simp only [seqStep, hm] at h
  · exact decodeStep_starts h
  · obtain ⟨-, -, -, rfl⟩ | ⟨-, rfl⟩ := embStep_next h
    · exact .inl ⟨hm, rfl, fun a => memRead_lsbWrite_of_ne s.car _⟩
    · exact .inr ⟨rfl, rfl, rfl⟩
  · have hset : ∀ car, memRead .car car s.seq.idx = memRead .car s.car s.seq.idx →
        seqStep (s.setCar car) = .next (t.setCar car) := fun car hcar => by
      simp only [seqStep, setCar_seq, hm, extStep_setCar hcar, h, Result.map]
    obtain ⟨-, rfl⟩ | ⟨-, -, rfl⟩ | ⟨-, -, -, rfl⟩ | ⟨-, -, -, -, rfl⟩ := extStep_next h
    · exact ⟨rfl, .inr ⟨rfl, rfl⟩, hset⟩
    · exact ⟨rfl, .inl rfl, hset⟩
    · exact ⟨rfl, .inl rfl, hset⟩
    · exact ⟨rfl, .inl rfl, hset⟩

/-! ## Runs (R115, R116) -/

/-- A run through `n` steps of a busy sequencer. -/
theorem seqRun_add {p : Nat → State} {n : Nat} (k : Nat)
    (h : ∀ i, i < n → (p i).seq.mode ≠ .idle ∧ seqStep (p i) = .next (p (i + 1))) :
    seqRun (k + n) (p 0) = seqRun k (p n) := by
  induction n generalizing k with
  | zero => rfl
  | succ n ih =>
    obtain ⟨hm, hs⟩ := h n (Nat.lt_succ_self n)
    calc seqRun (k + (n + 1)) (p 0) = seqRun (k + 1 + n) (p 0) := by rw [Nat.add_right_comm, Nat.add_assoc]
      _ = seqRun (k + 1) (p n) := ih (k + 1) fun i hi => h i (Nat.lt_succ_of_lt hi)
      _ = seqRun k (p (n + 1)) := seqRun_succ hm hs

/-- A run whose first step completes. -/
theorem seqRun_completes {k : Nat} {s t : State} (hm : s.seq.mode ≠ .idle) (h : seqStep s = .next t)
    (ht : t.seq.mode = .idle) : seqRun (k + 1) s = .next t := by
  rw [seqRun_succ hm h, seqRun_idle k ht]

/-- The decode step of a run. -/
theorem seqStep_dec {s : State} {i : Instr} (hm : s.seq.mode = .dec) (hd : decode s.seq.cw = .command i) :
    seqStep s = startCommand i s := by
  simp only [seqStep, hm, decodeStep_command hd]

/-! ### EMBED (R110, R111) -/

/-- EMBED after `j` EMB steps: the first `j` slots written. -/
def embAt (s : State) (j : Nat) : State :=
  (s.setCar (embedSlots (message s) s.car j)).setSeq
    { s.seq with n := msgLen s, lim := embedLimit s, tr := overflows s, idx := j, mode := .emb }

/-- An EMBED start is the whole of an EMBED that fails, or leaves an EMBED that succeeds with no slot written (R110). -/
theorem embedStart_execEmbed (s : State) :
    ((embedStart s).seq.mode = .idle ∧ execEmbed s = .next (embedStart s)) ∨
    (embedStart s = embAt s 0 ∧ msgLen s ≤ s.params.msgBufBytes ∧ execEmbed s = .next (embedded s)) := by
  obtain ⟨hl, k⟩ | ⟨hl, ho, hp, k⟩ | ⟨hl, hs, k⟩ := embedStart_cases s <;> rw [k]
  · exact .inl ⟨rfl, execEmbed_tooLong hl⟩
  · exact .inl ⟨rfl, execEmbed_overflow hl ho hp⟩
  · exact .inr ⟨rfl, hl, execEmbed_succeeds hl hs⟩

/-- An EMB step below LIM, inside the buffers, writes the slot IDX names (R111). -/
theorem embStep_slot {s : State} (hidx : s.seq.idx < s.seq.lim) (hcap : s.seq.idx < s.params.cap)
    (hn : s.seq.n ≤ s.params.msgBufBytes) :
    embStep s = .next ((s.setCar (lsbWrite s.car s.seq.idx (payloadBit (minBytes s s.seq.n) s.seq.idx))).setSeq
      { s.seq with idx := s.seq.idx + 1 }) := by
  rw [embStep, if_pos hidx, if_neg (Nat.not_le.mpr hcap), if_neg (Nat.not_lt.mpr hn)]

/-- The EMB step at LIM completes (R111). -/
theorem embStep_done {s : State} (hidx : s.seq.lim ≤ s.seq.idx) :
    embStep s = .next (complete .none false s.seq.tr false (s.setBitsWritten (zext32 s.seq.lim))) := by
  rw [embStep, if_neg (Nat.not_lt.mpr hidx)]

theorem seqStep_embAt {s : State} {j : Nat} (hl : msgLen s ≤ s.params.msgBufBytes) (hj : j < embedLimit s) :
    seqStep (embAt s j) = .next (embAt s (j + 1)) :=
  embStep_slot (s := embAt s j) hj (hj.trans_le (min_le_right _ _)) hl

theorem seqStep_embAt_limit (s : State) : seqStep (embAt s (embedLimit s)) = .next (embedded s) :=
  embStep_done (s := embAt s (embedLimit s)) (le_refl _)

/-- The run of an EMBED reaches its meaning (R115, R116). -/
theorem seqRun_embed {s : State} (hm : s.seq.mode = .dec) (hd : decode s.seq.cw = .command .embed) {k : Nat}
    (hk : embedLimit s + 2 ≤ k) : seqRun k s = execEmbed s := by
  have hstart : seqStep s = .next (embedStart s) := seqStep_dec hm hd
  have hbusy : s.seq.mode ≠ .idle := by simp [hm]
  obtain ⟨j, rfl⟩ : ∃ j, k = j + 1 + embedLimit s + 1 := ⟨k - (embedLimit s + 2), by omega⟩
  obtain ⟨hidle, he⟩ | ⟨h0, hl, he⟩ := embedStart_execEmbed s
  · rw [seqRun_completes hbusy hstart hidle, he]
  · rw [seqRun_succ hbusy hstart, h0, seqRun_add (p := embAt s) (j + 1) fun i hi => ⟨nofun, seqStep_embAt hl hi⟩, he]
    exact seqRun_completes nofun (seqStep_embAt_limit s) rfl

/-! ### EXTRACT (R113, R114) -/

/-- The EXT step at CAP completes (R114). -/
theorem extStep_end {s : State} (h : s.seq.idx = s.params.cap) :
    extStep s = .next (complete .none false false false (s.setMsgOutLen (zext32 s.seq.outk))) := by
  rw [extStep, if_pos h]

/-- Below CAP an EXT step shifts the bit of the slot IDX names into the group register (R114). -/
theorem extStep_extBit {s : State} (h : s.seq.idx < s.params.cap) :
    extStep s = extBit (shiftIn s.seq.acc (lsbRead s.car s.seq.idx)) s := by
  rw [extStep, if_neg h.ne, if_neg (Nat.lt_asymm h)]

/-- A bit that completes no group (R114). -/
theorem extBit_partial {s : State} (a : Byte) (h : s.seq.accn ≠ 7) :
    extBit a s = .next (s.setSeq { s.seq with idx := s.seq.idx + 1, acc := a, accn := s.seq.accn + 1 }) := by
  rw [extBit, if_neg h]

/-- A bit that completes a stop group (R114). -/
theorem extBit_stop {s : State} (h : s.seq.accn = 7) :
    extBit 0xFF s = .next (complete .none false false true
      ((s.setMsgOutLen (zext32 s.seq.outk)).setSeq { s.seq with idx := s.seq.idx + 1 })) := by
  rw [extBit, if_pos h, if_pos rfl]

/-- A bit that completes a group MOUT has a byte for (R114). -/
theorem extBit_group {s : State} {a : Byte} (h : s.seq.accn = 7) (ha : a ≠ 0xFF)
    (ho : s.seq.outk < s.params.outBufBytes) :
    extBit a s = .next ((s.setMOut (memWrite s.mOut s.seq.outk a)).setSeq
      { s.seq with idx := s.seq.idx + 1, outk := s.seq.outk + 1, acc := 0, accn := 0 }) := by
  rw [extBit, if_pos h, if_neg ha, if_neg (Nat.not_le.mpr ho)]

/-- EXTRACT with the first `n` bits of group `k` read, and MOUT as the groups before it left it. -/
def extAt (s : State) (k : Nat) (mOut : Memory) (n : Nat) : State :=
  (s.setMOut mOut).setSeq
    { s.seq with idx := 8 * k + n, acc := partialAcc s.car (8 * k) n, accn := n, outk := k, mode := .ext }

/-- An EXTRACT starts before the first bit of group 0 (R113). -/
theorem extractStart_eq (s : State) : extractStart s = extAt s 0 s.mOut 0 := rfl

/-- EXTRACT completed with the scan `r` (R99). -/
def extDone (s : State) (r : Scan) : State :=
  complete .none false false r.found
    (((s.setMOut r.mOut).setMsgOutLen (zext32 r.k)).setSeq (seqAfterExtract s.seq s.car s.params.cap r))

/-- EXTRACT's meaning is the scan from group 0 (R99). -/
theorem extDone_extractScan (s : State) : extDone s (extractScan s) = extracted s := rfl

/-- An EXT step of group `k` makes its register the one after the next bit. -/
theorem seqStep_extAt {s : State} {k n : Nat} (m : Memory) (h : 8 * k + n < s.params.cap) :
    seqStep (extAt s k m n) = extBit (partialAcc s.car (8 * k) (n + 1)) (extAt s k m n) :=
  extStep_extBit (s := extAt s k m n) h

/-- The first bits of a group, up to seven, complete none. -/
theorem seqRun_extAt_bits {s : State} {k n : Nat} (m : Memory) (hn : n ≤ 7) (hc : 8 * k + n ≤ s.params.cap) (j : Nat) :
    seqRun (j + n) (extAt s k m 0) = seqRun j (extAt s k m n) := by
  refine seqRun_add (p := extAt s k m) j fun i hi => ⟨nofun, ?_⟩
  rw [seqStep_extAt m (by omega)]
  exact extBit_partial (s := extAt s k m i) _ (show i ≠ 7 by omega)

/-- The eighth bit of a stop group completes the command with the scan that ends there. -/
theorem seqStep_extAt_stop {s : State} {k : Nat} (m : Memory) (hc : 8 * k + 7 < s.params.cap)
    (hg : groupAt s.car k = 0xFF) : seqStep (extAt s k m 7) = .next (extDone s { k := k, found := true, mOut := m }) := by
  rw [seqStep_extAt m hc, partialAcc_group, hg]
  exact extBit_stop (s := extAt s k m 7) rfl

/-- The eighth bit of another group copies it and begins the next. -/
theorem seqStep_extAt_group {s : State} {k : Nat} (m : Memory) (hc : 8 * k + 7 < s.params.cap)
    (hg : groupAt s.car k ≠ 0xFF) :
    seqStep (extAt s k m 7) = .next (extAt s (k + 1) (memWrite m k (groupAt s.car k)) 0) := by
  have hout : k < s.params.outBufBytes := by rw [Params.outBufBytes]; omega
  rw [seqStep_extAt m hc, partialAcc_group]
  exact extBit_group (s := extAt s k m 7) rfl hg hout

/-- After the last complete group the rest of the slots is read and discarded. -/
theorem seqStep_extAt_end {s : State} {k n : Nat} (m : Memory) (hn : n < 8) (h : 8 * k + n = s.params.cap) :
    seqStep (extAt s k m n) = .next (extDone s { k := k, found := false, mOut := m }) := by
  have hmod : s.params.cap % 8 = n := by omega
  refine (extStep_end (s := extAt s k m n) h).trans ?_
  rw [extDone, seqAfterExtract, hmod, ← h]
  rfl

/-- The run of an EXTRACT from group `k` on, with `left` complete groups to read, follows the scan (R99, R114). -/
theorem seqRun_extAt {s : State} {left k j : Nat} (m : Memory) (hk : k + left = s.params.cap / 8)
    (hj : s.params.cap - 8 * k + 1 ≤ j) :
    seqRun j (extAt s k m 0) = .next (extDone s (scanGroups s.car left k m)) := by
  induction left generalizing k m j with
  | zero =>
    obtain ⟨i, rfl⟩ : ∃ i, j = i + 1 + s.params.cap % 8 := ⟨j - 1 - s.params.cap % 8, by omega⟩
    rw [seqRun_extAt_bits m (by omega) (by omega)]
    exact seqRun_completes nofun (seqStep_extAt_end m (by omega) (by omega)) rfl
  | succ left ih =>
    have hc : 8 * k + 7 < s.params.cap := by omega
    obtain ⟨i, rfl⟩ : ∃ i, j = i + 1 + 7 := ⟨j - 8, by omega⟩
    rw [seqRun_extAt_bits m (le_refl 7) hc.le, scanGroups]
    split_ifs with hs
    · exact seqRun_completes nofun (seqStep_extAt_stop m hc ((isStop_iff _).mp hs)) rfl
    · rw [seqRun_succ (s := extAt s k m 7) nofun (seqStep_extAt_group m hc (mt (isStop_iff _).mpr hs))]
      exact ih _ (by omega) (by omega)

/-- The run of an EXTRACT reaches its meaning (R115, R116). -/
theorem seqRun_extract {s : State} (hm : s.seq.mode = .dec) (hd : decode s.seq.cw = .command .extract) {k : Nat}
    (hk : s.params.cap + 2 ≤ k) : seqRun k s = execExtract s := by
  obtain ⟨j, rfl⟩ : ∃ j, k = j + 1 := ⟨k - 1, by omega⟩
  have hstart : seqStep s = .next (extractStart s) := seqStep_dec hm hd
  rw [seqRun_succ (by simp [hm]) hstart, extractStart_eq, seqRun_extAt s.mOut (Nat.zero_add _) (by omega), execExtract_eq,
    ← extDone_extractScan, extractScan]

/-- Settles O40: EMBED slot by slot, EXTRACT group by group, and WRBIT and RDBIT in the decode step itself. -/
theorem sequencerAgreesWithMeaning : Obligations.SequencerAgreesWithMeaning := by
  intro s i k hm hd hk
  have oneStep (hi : seqStep s = exec i s) (hk : 1 ≤ k) : seqRun k s = exec i s := by
    obtain ⟨j, rfl⟩ := Nat.exists_eq_add_of_le' hk
    obtain ⟨t, -, -, -, -, ht, -, hidle, -⟩ := exec_completes i s
    rw [seqRun_completes (by simp [hm]) (hi.trans ht) hidle, ht]
  cases i with
  | embed => exact seqRun_embed hm hd hk
  | extract => exact seqRun_extract hm hd hk
  | wrbit b => exact oneStep (seqStep_dec hm hd) hk
  | rdbit => exact oneStep (seqStep_dec hm hd) hk

end Sys2Proof.Machine
end

section
/-! Proofs for 60_exceptions.md R120 to R127: the completion of a command, what an error leaves, which error each command
ends with, and how long STATUS holds. -/

namespace Sys2Proof.Machine

/-! ## Completion (R121) -/

/-- ECODE is the number of the error code (R120). -/
theorem statusEcode_complete_toNat (e : ErrorCode) (r t f : Bit) :
    (statusEcode (completeStatus e r t f)).toNat = errorNumber e := by
  rw [statusEcode_complete]
  cases e <;> rfl

/-- Settles O23: `complete_eq` is the frame, each field of STATUS has its law, BUSY = 0 lets the held access take effect,
and `exec_completes` says that every command ends so. -/
theorem completeWritesStatus : Obligations.CompleteWritesStatus := by
  refine ⟨fun e r t f s => ?_, fun i s => ?_⟩
  · exact ⟨complete_eq e r t f s, statusBusy_complete e r t f, statusDone_complete e r t f, statusErr_complete e r t f,
      statusEcode_complete_toNat e r t f, statusRbit_complete e r t f, statusTrunc_complete e r t f,
      statusFound_complete e r t f, completeStatus_bit3 e r t f, fun _ hi => completeStatus_high e r t f hi,
      raiseError_eq e s, fun _ ha => hostTurn_held (statusBusy_complete e r t f) ha⟩
  · obtain ⟨u, e, r, t, f, hu, hstatus, hidle, -⟩ := exec_completes i s
    exact ⟨u, e, r, t, f, hu, hstatus, hidle⟩

/-! ## Which error a command ends with (R120, R123) -/

/-- A completion without an error has ECODE 0. -/
theorem statusEcode_complete_none (r t f : Bit) : statusEcode (completeStatus .none r t f) = 0 :=
  statusEcode_complete .none r t f

/-- A completion without an error has ERR 0. -/
theorem statusErr_complete_none (r t f : Bit) : statusErr (completeStatus .none r t f) = false :=
  statusErr_complete .none r t f

/-- EMBED succeeds when the message is in the buffer and fits or is truncated (42_stego.md R95). -/
theorem exec_embed_succeeds {s : State} (h : embedSucceeds s = true) : exec .embed s = .next (embedded s) := by
  simp only [embedSucceeds, overflows, Bool.and_eq_true, decide_eq_true_eq, Bool.not_eq_true', ← Bool.not_eq_true] at h
  obtain ⟨hlen, hfits⟩ := h
  exact execEmbed_succeeds hlen hfits

/-- The error of WRBIT and RDBIT: SLOT_RANGE exactly on a slot that does not exist (41_slot_access.md R87). -/
def slotError (s : State) : ErrorCode := if s.slot.toNat < s.params.cap then .none else .slotRange

theorem exec_wrbit_status (b : Bit) (s : State) :
    ∃ t, exec (.wrbit b) s = .next t ∧ t.status = completeStatus (slotError s) false false false := by
  by_cases hv : s.slot.toNat < s.params.cap
  · exact ⟨_, execWrbit_valid b hv, by rw [slotError, if_pos hv]; rfl⟩
  · exact ⟨_, execWrbit_invalid b (Nat.le_of_not_lt hv), by rw [slotError, if_neg hv]; rfl⟩

theorem exec_rdbit_status (s : State) :
    ∃ t r, exec .rdbit s = .next t ∧ t.status = completeStatus (slotError s) r false false := by
  by_cases hv : s.slot.toNat < s.params.cap
  · exact ⟨_, _, execRdbit_valid hv, by rw [slotError, if_pos hv]; rfl⟩
  · exact ⟨_, _, execRdbit_invalid (Nat.le_of_not_lt hv), by rw [slotError, if_neg hv]; rfl⟩

/-- ECODE of WRBIT and RDBIT: 2 exactly on a slot that does not exist, and 0 exactly on one that does. -/
theorem statusEcode_slotError (s : State) (r t f : Bit) :
    ((statusEcode (completeStatus (slotError s) r t f)).toNat = 2 ↔ s.params.cap ≤ s.slot.toNat)
      ∧ (statusEcode (completeStatus (slotError s) r t f) = 0 ↔ s.slot.toNat < s.params.cap) := by
  rw [statusEcode_complete]
  by_cases hv : s.slot.toNat < s.params.cap
  · simp [slotError, hv, errorNumber]
  · simp [slotError, hv, errorNumber, Nat.le_of_not_lt hv]

/-- Settles O26: EMBED in each of its three ways, EXTRACT in its one, WRBIT and RDBIT by the error of their slot. -/
theorem errorCodesAndPriority : Obligations.ErrorCodesAndPriority := by
  intro s b
  refine ⟨exec_embed_tooLong, exec_embed_overflow, fun hs => ?_, ?_, ?_, ?_⟩
  · exact ⟨_, exec_embed_succeeds hs, statusEcode_complete_none _ _ _, statusErr_complete_none _ _ _⟩
  · exact ⟨_, execExtract_eq s, statusEcode_complete_none _ _ _, statusErr_complete_none _ _ _⟩
  · obtain ⟨t, ht, hstatus⟩ := exec_wrbit_status b s
    exact ⟨t, ht, by rw [hstatus]; exact statusEcode_slotError s _ _ _⟩
  · obtain ⟨t, r, ht, hstatus⟩ := exec_rdbit_status s
    exact ⟨t, ht, by rw [hstatus]; exact statusEcode_slotError s _ _ _⟩

/-! ## What an error leaves (R122) -/

/-- What an error of the command `i` leaves when STATUS becomes `w`. -/
def afterError (i : Instr) (s : State) (w : Word) : State :=
  { s with
    status := w
    seq := { s.seq with mode := .idle }
    bitsWritten := if i = .embed then 0 else s.bitsWritten }

/-- A command that ends with an error leaves STATUS, the sequencer idle and for EMBED BITS_WRITTEN = 0. -/
theorem exec_error {i : Instr} {s t : State} (h : exec i s = .next t) (he : statusEcode t.status ≠ 0) :
    t = afterError i s t.status := by
  cases i with
  | embed =>
    obtain ⟨-, k⟩ | ⟨-, -, -, k⟩ | ⟨-, -, k⟩ := execEmbed_cases s <;> cases h.symm.trans k
    · rfl
    · rfl
    · exact absurd (statusEcode_complete_none _ _ _) he
  | extract => cases h; exact absurd (statusEcode_complete_none _ _ _) he
  | wrbit b =>
    by_cases hv : s.slot.toNat < s.params.cap
    · cases h.symm.trans (execWrbit_valid b hv); exact absurd (statusEcode_complete_none _ _ _) he
    · cases h.symm.trans (execWrbit_invalid b (Nat.le_of_not_lt hv)); rfl
  | rdbit =>
    by_cases hv : s.slot.toNat < s.params.cap
    · cases h.symm.trans (execRdbit_valid hv); exact absurd (statusEcode_complete_none _ _ _) he
    · cases h.symm.trans (execRdbit_invalid (Nat.le_of_not_lt hv)); rfl

/-- EMBED's word is 1 (30_encoding.md R62). -/
theorem decode_eq_embed_iff (w : Word) : decode w = .command .embed ↔ w = 0x00000001 :=
  decodeInvertsEncode .embed w rfl

/-- Settles O25: `exec_error`, and for a command word the same from its issue; an ILLEGAL word is not EMBED's. -/
theorem errorsChangeNothingElse : Obligations.ErrorsChangeNothingElse := by
  refine ⟨fun i s t => exec_error, fun w s t h he => ?_⟩
  have hword := decode_eq_embed_iff w
  unfold execWord at h
  cases hd : decode w with
  | command i =>
    rw [hd] at h hword
    have hembed : (i = .embed) = (w = 0x00000001) := by rw [← hword, Decoded.command.injEq]
    have ht := exec_error h he
    simp only [afterError, hembed] at ht
    exact ht
  | illegal why =>
    rw [hd] at h hword
    rw [if_neg fun hw => nomatch hword.mpr hw]
    cases h
    rfl

/-! ## How long STATUS holds (R127) -/

/-- A HOST turn leaves STATUS and the sequencer, or issues a command (30_encoding.md R65). -/
theorem hostTurn_status {s t : State} (h : hostTurn s = .next t) :
    (t.status = s.status ∧ t.seq = s.seq) ∨ (t.status = busyStatus ∧ t.seq.mode = .dec) := by
  obtain ⟨q, g, hd, rfl⟩ | ⟨-, q, hd, ⟨r, v, rfl⟩ | ⟨b, n, v, -, -, rfl⟩⟩ := hostTurn_next h
  · exact .inl ⟨rfl, rfl⟩
  · obtain k | k | k | k | k := writeReg_cases r v { s with hostQueue := q, held := hd } <;> rw [k]
    · exact .inr ⟨rfl, rfl⟩
    all_goals exact .inl ⟨rfl, rfl⟩
  · cases b <;> exact .inl ⟨rfl, rfl⟩

/-- Settles O49: with the sequencer idle, of the agents only the HOST, by an issue, and reset write STATUS. -/
theorem statusHoldsUntilTheNextCommand : Obligations.StatusHoldsUntilTheNextCommand := by
  intro s t h hm
  obtain ⟨-, ts, hh⟩ | ⟨-, -, hdec, -⟩ | ⟨-, -, hdec, -⟩ | ⟨-, ts, hq⟩ | ⟨hr, ts, -, rfl⟩ | ⟨hr, ts, -, rfl⟩ :=
    step_next h
  · obtain ⟨hstatus, hseq⟩ | hissue := hostTurn_status hh
    · exact .inl ⟨hstatus, by rw [hseq]; exact hm⟩
    · exact .inr (.inl hissue)
  · exact nomatch hm.symm.trans hdec
  · exact nomatch hm.symm.trans hdec
  · simp only [seqStep, hm] at hq
    cases hq
    exact .inl ⟨rfl, hm⟩
  · exact .inr (.inr ⟨hr, rfl⟩)
  · exact .inr (.inr ⟨hr, rfl⟩)

end Sys2Proof.Machine
end

section
/-! Proofs for 70_reset_and_hazards.md R140 to R149: what reset leaves, a reset during a command, and the quiet machine
between commands. -/

namespace Sys2Proof.Machine

/-! ## Reset (R140) -/

@[simp] theorem resetOp_params (s : State) : (resetOp s).params = s.params := rfl
@[simp] theorem resetOp_status (s : State) : (resetOp s).status = 0 := rfl
@[simp] theorem resetOp_mode (s : State) : (resetOp s).seq.mode = .idle := rfl
@[simp] theorem resetOp_held (s : State) : (resetOp s).held = none := rfl
@[simp] theorem resetOp_hostQueue (s : State) : (resetOp s).hostQueue = s.hostQueue := rfl
@[simp] theorem resetOp_hostGot (s : State) : (resetOp s).hostGot = s.hostGot := rfl
@[simp] theorem resetOp_turns (s : State) : (resetOp s).turns = s.turns := rfl
@[simp] theorem resetOp_mIn (s : State) : (resetOp s).mIn = s.mIn := rfl
@[simp] theorem resetOp_car (s : State) : (resetOp s).car = s.car := rfl
@[simp] theorem resetOp_mOut (s : State) : (resetOp s).mOut = s.mOut := rfl

/-- Settles O44, field by field from `resetOp_eq`. -/
theorem resetSetsTheRegisters : Obligations.ResetSetsTheRegisters := by
  rintro s _ rfl
  rw [resetOp_eq]
  exact ⟨rfl, rfl, rfl, rfl, rfl, rfl, rfl, rfl, rfl, rfl, rfl, rfl, rfl, rfl, rfl⟩

/-- Settles O46, by the definition of the state after reset. -/
theorem resetStateHoldsTheSpecValues : Obligations.ResetStateHoldsTheSpecValues :=
  ⟨rfl, rfl, rfl, rfl, rfl, rfl, rfl, rfl, rfl, rfl, rfl⟩

/-- Settles O56: the sequencer is idle with STATUS 0, and everything the invariant bounds is empty or 0. -/
theorem resetMeetsTheInvariant : Obligations.ResetMeetsTheInvariant where
  params := by decide
  status := .inr ⟨rfl, .inl rfl⟩
  config := rfl
  buffers b := by cases b <;> rfl
  seqRange := ⟨Nat.zero_le _, Nat.zero_le _, Nat.zero_le _, Nat.zero_le _, Nat.zero_le _⟩
  emb := nofun
  ext := nofun
  results := ⟨Nat.zero_le _, Nat.zero_le _⟩

/-- A turn listed as a reset between two sequencer steps. -/
theorem step_reset {s : State} {ts : List Turn} (h : s.turns = .reset :: ts) :
    step s = .next (resetOp { s with turns := ts }) := by
  simp only [step, h, State.setTurns]

/-- A turn listed as a reset inside a sequencer step. -/
theorem step_resetInStep {s : State} {ts : List Turn} (h : s.turns = .resetInStep :: ts) :
    step s = .next (resetOp (abandonStep { s with turns := ts })) := by
  simp only [step, h, State.setTurns]

/-- Settles O45: a reset inside a step is the reset of what the abandoned step leaves, which differs from the machine
before in CAR and MOUT alone. -/
theorem resetTurn : Obligations.ResetTurn := by
  refine fun s ts => ⟨fun hts => ?_, fun hts => ?_⟩
  · exact ⟨_, step_reset hts, rfl, by simp⟩
  · obtain ⟨c, m, hframe⟩ : ∃ c m,
        abandonStep { s with turns := ts } = { s with turns := ts, car := c, mOut := m } := ⟨_, _, abandonStep_eq _⟩
    obtain ⟨-, hidle, hbuf⟩ : ResetWrites s (resetOp (abandonStep { s with turns := ts })) :=
      resetOp_abandonStep_writes hts
    have hstep := step_resetInStep hts
    rw [hframe] at hidle hbuf hstep
    have hhead : s.turns.head? = some .resetInStep := by rw [hts]; rfl
    refine ⟨_, hstep, by rw [resetOp_car, resetOp_mOut], ?_⟩
    simpa using ⟨fun u hu => hbuf u hhead hu, fun hm => hidle (.inr hm)⟩

/-! ## Between commands (R149) -/

/-- Settles O48: an idle sequencer and a HOST with nothing to do leave the machine. -/
theorem nothingChangesBetweenCommands : Obligations.NothingChangesBetweenCommands := by
  refine fun s hm => ⟨fun ts hts => ?_, fun ts hts hh hq => ?_, fun hts hh hq => ?_⟩
  · rw [step_seq hts]
    simp only [seqStep, setTurns_seq, hm]
    rfl
  · exact (step_host hts).trans (hostTurn_empty (s := s.setTurns ts) hh hq)
  · exact (step_idle hts hm).trans (hostTurn_empty hh hq)

/-! ## A reset in the decode step (R141) -/

/-- The decode step never writes MOUT, and writes the carrier for a WRBIT alone (30_encoding.md R66). -/
theorem decodeStep_buffers {s t : State} (h : decodeStep s = .next t) :
    t.mOut = s.mOut ∧ ((∀ b, decode s.seq.cw ≠ .command (.wrbit b)) → t.car = s.car) := by
  cases hd : decode s.seq.cw with
  | illegal why => cases h.symm.trans (decodeStep_illegal hd); exact ⟨rfl, fun _ => rfl⟩
  | command i =>
    rw [decodeStep_command hd] at h
    cases i with
    | embed =>
      cases h
      obtain ⟨-, k⟩ | ⟨-, -, -, k⟩ | ⟨-, -, k⟩ := embedStart_cases s <;> rw [k] <;> exact ⟨rfl, fun _ => rfl⟩
    | extract => cases h; exact ⟨rfl, fun _ => rfl⟩
    | wrbit b =>
      refine ⟨?_, fun hw => absurd rfl (hw b)⟩
      by_cases hv : s.slot.toNat < s.params.cap
      · cases h.symm.trans (execWrbit_valid b hv); rfl
      · cases h.symm.trans (execWrbit_invalid b (Nat.le_of_not_lt hv)); rfl
    | rdbit =>
      by_cases hv : s.slot.toNat < s.params.cap
      · cases h.symm.trans (execRdbit_valid hv); exact ⟨rfl, fun _ => rfl⟩
      · cases h.symm.trans (execRdbit_invalid (Nat.le_of_not_lt hv)); exact ⟨rfl, fun _ => rfl⟩

/-- A reset inside a decode step finds MOUT as it was, and the carrier too unless the command is a WRBIT. -/
theorem abandonStep_decode {s : State} (hm : s.seq.mode = .dec) :
    (abandonStep s).mOut = s.mOut ∧
      ((∀ b, decode s.seq.cw ≠ .command (.wrbit b)) → (abandonStep s).car = s.car) := by
  obtain ⟨t, ht, -⟩ := decodeStep_answers s
  have hstep : seqStep s = .next t := by simp only [seqStep, hm, ht]
  rw [abandonStep_of_next hstep]
  exact decodeStep_buffers (t := t) ht

/-- A reset inside the decode step of a WRBIT finds the new bit in the slot, if there is one (41_slot_access.md R87,
R88). -/
theorem abandonStep_wrbit {s : State} {b : Bit} (hm : s.seq.mode = .dec) (hd : decode s.seq.cw = .command (.wrbit b)) :
    (abandonStep s).car = if s.slot.toNat < s.params.cap then lsbWrite s.car s.slot.toNat b else s.car := by
  have hstep : seqStep s = execWrbit b s := seqStep_dec hm hd
  split_ifs with hv
  · rw [abandonStep_of_next (hstep.trans (execWrbit_valid b hv))]; rfl
  · rw [abandonStep_of_next (hstep.trans (execWrbit_invalid b (Nat.le_of_not_lt hv)))]; rfl

/-! ## A reset during EMBED (R141) -/

/-- An EMBED that succeeds is started by its decode step (42_stego.md R110). -/
theorem embedStart_of_embedSucceeds {s : State} (h : embedSucceeds s = true) : embedStart s = embAt s 0 := by
  simp only [embedSucceeds, overflows, Bool.and_eq_true, decide_eq_true_eq, Bool.not_eq_true',
    Bool.and_eq_false_iff] at h
  obtain ⟨hl, ho⟩ := h
  obtain ⟨hbad, -⟩ | ⟨-, hcap, hp, -⟩ | ⟨-, -, k⟩ := embedStart_cases s
  · omega
  · simp [hcap, hp] at ho
  · exact k

theorem msgLen_le_of_embedSucceeds {s : State} (h : embedSucceeds s = true) : msgLen s ≤ s.params.msgBufBytes := by
  simp only [embedSucceeds, Bool.and_eq_true, decide_eq_true_eq] at h
  exact h.1

@[simp] theorem embAt_car (s : State) (j : Nat) : (embAt s j).car = embedSlots (message s) s.car j := rfl

@[simp] theorem embAt_status (s : State) (j : Nat) : (embAt s j).status = s.status := rfl

/-- The start of an EMBED that succeeds and `j` EMB steps more. -/
theorem seqRun_embAt {s : State} (hm : s.seq.mode = .dec) (hd : decode s.seq.cw = .command .embed)
    (hs : embedSucceeds s = true) {j : Nat} (hj : j ≤ embedLimit s) : seqRun (j + 1) s = .next (embAt s j) := by
  have hl := msgLen_le_of_embedSucceeds hs
  have hstart : seqStep s = .next (embAt s 0) := by
    rw [← embedStart_of_embedSucceeds hs]; exact seqStep_dec hm hd
  calc seqRun (j + 1) s = seqRun j (embAt s 0) := seqRun_succ (by simp [hm]) hstart
    _ = seqRun (0 + j) (embAt s 0) := by rw [Nat.zero_add]
    _ = seqRun 0 (embAt s j) :=
      seqRun_add (p := embAt s) 0 fun i hi => ⟨nofun, seqStep_embAt hl (hi.trans_le hj)⟩

/-- A reset inside the step after `j` slots of an EMBED finds one slot more, if there is one. -/
theorem abandonStep_embAt_car {s : State} (hl : msgLen s ≤ s.params.msgBufBytes) {j : Nat} (hj : j ≤ embedLimit s) :
    (abandonStep (embAt s j)).car = embedSlots (message s) s.car (min (j + 1) (embedLimit s)) := by
  obtain hlt | rfl := hj.lt_or_eq
  · rw [abandonStep_of_next (seqStep_embAt hl hlt), Nat.min_eq_left hlt]; rfl
  · rw [abandonStep_of_next (seqStep_embAt_limit s), Nat.min_eq_right (Nat.le_succ _)]; rfl

/-! ## A reset during EXTRACT (R141) -/

/-- MOUT is `m` with the first `k` of the bytes that EXTRACT copies over what it held (42_stego.md R99). -/
def CopiedPrefix (s : State) (k : Nat) (m : Memory) : Prop :=
  k ≤ (extractScan s).k ∧ ∀ a, memRead .mout m a = if a < k then groupAt s.car a else memRead .mout s.mOut a

/-- At its issue an EXTRACT has copied nothing. -/
theorem copiedPrefix_zero (s : State) : CopiedPrefix s 0 s.mOut := ⟨Nat.zero_le _, fun _ => rfl⟩

/-- The group after the first `k` is copied too when it is complete and no stop group. -/
theorem CopiedPrefix.succ {s : State} {k : Nat} {m : Memory} (h : CopiedPrefix s k m) (hw : s.mOut.wf = true)
    (hk : 8 * k + 7 < s.params.cap) (hg : groupAt s.car k ≠ 0xFF) :
    CopiedPrefix s (k + 1) (memWrite m k (groupAt s.car k)) := by
  obtain ⟨hle, hm⟩ := h
  obtain ⟨-, -, hstop, hend, -, -⟩ := extractScan_spec hw
  have hne : k ≠ (extractScan s).k := fun e => by
    cases hf : (extractScan s).found with
    | true => exact hg (e ▸ (hstop hf).2)
    | false => have := hend hf; omega
  refine ⟨by omega, fun a => ?_⟩
  rw [memRead_memWrite, hm]
  by_cases ha : a = k
  · rw [if_pos ha, if_pos (by omega), ha]
  · have hlt : (a < k + 1) = (a < k) := by simp only [eq_iff_iff]; omega
    simp only [ha, hlt, if_false]

/-- The states an EXTRACT issued in `s` goes through: the issue, a group partly read, the completion. -/
inductive ExtractReaches (s : State) : State → Prop
  | issued : ExtractReaches s s
  | reading {k n : Nat} {m : Memory} : CopiedPrefix s k m → n ≤ 7 → 8 * k + n ≤ s.params.cap →
      ExtractReaches s (extAt s k m n)
  | done {r : Scan} : CopiedPrefix s r.k r.mOut → ExtractReaches s (extDone s r)

/-- An EXT step that completes no group. -/
theorem seqStep_extAt_partial {s : State} {k n : Nat} (m : Memory) (hn : n ≠ 7) (hc : 8 * k + n < s.params.cap) :
    seqStep (extAt s k m n) = .next (extAt s k m (n + 1)) := by
  rw [seqStep_extAt m hc]
  exact extBit_partial (s := extAt s k m n) _ hn

/-- Where one EXT step leads: to the next bit, past a group that is copied, or to the completion. -/
theorem extractReaches_of_seqStep_extAt {s : State} {k n : Nat} {m : Memory} (hw : s.mOut.wf = true)
    (hm : CopiedPrefix s k m) (hn : n ≤ 7) (hc : 8 * k + n ≤ s.params.cap) :
    ∃ u, seqStep (extAt s k m n) = .next u ∧ ExtractReaches s u := by
  obtain hlt | hend := hc.lt_or_eq
  · by_cases h7 : n = 7
    · subst h7
      by_cases hg : groupAt s.car k = 0xFF
      · exact ⟨_, seqStep_extAt_stop m hlt hg, .done hm⟩
      · exact ⟨_, seqStep_extAt_group m hlt hg, .reading (hm.succ hw hlt hg) (Nat.zero_le 7) (by omega)⟩
    · exact ⟨_, seqStep_extAt_partial m h7 hlt, .reading hm (by omega) hlt⟩
  · exact ⟨_, seqStep_extAt_end m (by omega) hend, .done hm⟩

/-- Every sequencer step of an EXTRACT stays among its states (42_stego.md R113, R114). -/
theorem ExtractReaches.seqStep {s t u : State} (hw : s.mOut.wf = true) (hm : s.seq.mode = .dec)
    (hd : decode s.seq.cw = .command .extract) (h : ExtractReaches s t) (hu : seqStep t = .next u) :
    ExtractReaches s u := by
  cases h with
  | issued =>
    cases hu.symm.trans (seqStep_dec hm hd)
    exact .reading (copiedPrefix_zero s) (Nat.zero_le 7) (Nat.zero_le _)
  | reading hp hn hc =>
    obtain ⟨v, hv, hr⟩ := extractReaches_of_seqStep_extAt hw hp hn hc
    cases hu.symm.trans hv
    exact hr
  | done hp => cases hu; exact .done hp

/-- A run of the sequencer keeps what every sequencer step keeps. -/
theorem seqRun_keeps {P : State → Prop} (hstep : ∀ t u, P t → seqStep t = .next u → P u) {m : Nat} {s t : State}
    (hs : P s) (h : seqRun m s = .next t) : P t := by
  induction m generalizing s with
  | zero => cases h; exact hs
  | succ m ih =>
    unfold seqRun at h
    split_ifs at h with hidle
    · cases h; exact hs
    · cases hu : seqStep s with
      | next u => rw [hu] at h; exact ih (hstep s u hs hu) h
      | fault r => rw [hu] at h; cases h
      | refused r => rw [hu] at h; cases h

/-- Every state of an EXTRACT has the carrier as it was, and in MOUT the first of the copied bytes. -/
theorem ExtractReaches.buffers {s t : State} (h : ExtractReaches s t) :
    t.car = s.car ∧ ∃ k, CopiedPrefix s k t.mOut := by
  cases h with
  | issued => exact ⟨rfl, 0, copiedPrefix_zero s⟩
  | reading hp => exact ⟨rfl, _, hp⟩
  | done hp => exact ⟨rfl, _, hp⟩

/-- So has what a reset between or inside the steps of an EXTRACT finds: the buffers of one of its states. -/
theorem extract_reset_buffers {s t : State} {m : Nat} (h : MachineInv s) (hm : s.seq.mode = .dec)
    (hd : decode s.seq.cw = .command .extract) (ht : seqRun m s = .next t) {u : State} (hu : u ∈ [t, abandonStep t]) :
    u.car = s.car ∧ ∃ k, CopiedPrefix s k u.mOut := by
  have hkeeps := fun v w => ExtractReaches.seqStep (t := v) (u := w) h.mOut_wf hm hd
  have hreach : ExtractReaches s t := seqRun_keeps hkeeps .issued ht
  simp only [List.mem_cons, List.not_mem_nil, or_false] at hu
  obtain rfl | rfl := hu
  · exact hreach.buffers
  · obtain ⟨v, hv, k⟩ | k := abandonStep_cases t <;> rw [k]
    · exact (hkeeps t v hreach hv).buffers
    · exact hreach.buffers

/-! ## A reset during a command (R141) -/

/-- Settles O47, clause by clause: reset keeps CAR and MOUT, so each clause is what the abandoned run or step left in
them. -/
theorem resetDuringACommand : Obligations.ResetDuringACommand := by
  refine ⟨fun s u _ => ⟨resetOp_mode u, resetOp_status u⟩, fun s j h hm hd hs hj => ?_, fun s hm => ?_,
    fun s t m h hm hd ht u hu => ?_⟩
  · refine ⟨_, seqRun_embAt hm hd hs hj, ?_, fun a => ?_, fun a => ?_⟩
    · rw [embAt_status, h.busy (by simp [hm]), statusBusy_busyStatus]
    · rw [resetOp_car, embAt_car, memRead_embedSlots]
    · rw [resetOp_car, abandonStep_embAt_car (msgLen_le_of_embedSucceeds hs) hj, memRead_embedSlots]
  · obtain ⟨hmout, hcar⟩ := abandonStep_decode hm
    simp only [resetOp_car, resetOp_mOut, true_and]
    refine ⟨hmout, hcar, fun b hd => ?_⟩
    have hwrbit := abandonStep_wrbit hm hd
    refine ⟨fun hv a => ?_, fun hv => hwrbit.trans (if_neg (Nat.not_lt.mpr hv))⟩
    rw [hwrbit, if_pos hv, memRead_lsbWrite]
    split_ifs with ha
    · rw [ha]
    · rfl
  · obtain ⟨hcar, k, hk, hread⟩ := extract_reset_buffers h hm hd ht hu
    rw [resetOp_car, resetOp_mOut]
    exact ⟨k, hk, hcar, hread⟩

end Sys2Proof.Machine
end

section
/-! Proofs for the canonical form of a buffer (20_memory.md R40; log entry 2). -/

namespace Sys2Proof.Machine

/-- Settles O11: both lists rise from address 0, so the extensionality of rising lists (`memWfFrom_ext`) applies. -/
theorem canonicalBuffersAreEqualData : Obligations.CanonicalBuffersAreEqualData :=
  fun _ _ hm hn hget => wf_ext hm hn hget

end Sys2Proof.Machine
end
